-- ==== Sys2Proof/Config.lean ====
section
/-! DEFINITION. What is fixed when the block is built: the two parameters and the constants of 00_scope.md R5. -/

namespace Sys2Proof

/-- The named parameters of R5: "A model takes `N_CH` and `SNAP_ENC_SIGNED` as arguments". Every shared operation of
the model takes a `Params`; only the meanings that `exec` calls fix it to this hardware's values. -/
structure Params where
  /-- `N_CH`: how many channels each bank has. -/
  nCh : Nat
  /-- `SNAP_ENC_SIGNED`: the reply's 16-bit encoder words are two's complement (R79). -/
  snapEncSigned : Bool
deriving DecidableEq, Repr

/-- The legal range 1..255 of `N_CH` (R5). -/
abbrev Params.legal (p : Params) : Prop := 1 ≤ p.nCh ∧ p.nCh ≤ 255

namespace Config

/-- This hardware's parameters (R5): `N_CH` = 4, `SNAP_ENC_SIGNED` = true. -/
def isc : Params := { nCh := 4, snapEncSigned := true }

/-- `FB_CAP` (R5): the frame buffer has 32 byte cells, indices 0..31. -/
abbrev fbCap : Nat := 32

/-- `OVF_LIMIT` (R5): a byte that arrives while `RX.len` is above 30 overflows. -/
abbrev ovfLimit : Nat := 30

/-- `FRAME_MAX` (R5): the longest frame, its terminator included. -/
abbrev frameMax : Nat := 31

/-- `ENC_MAX` (R5): encoder values lie in [0, 127]. -/
abbrev encMax : Int := 127

/-- `BUS_REPLY_LEN` (R5): a complete bus reply has 9 bytes. -/
abbrev busReplyLen : Nat := 9

/-- `BUS_N_ENC` and `BUS_N_BTN` (R5): a reply carries 4 encoder words and 4 button bits. -/
abbrev busChannels : Nat := 4

end Config

end Sys2Proof
end

