-- ==== Sys2Proof/Word.lean ====
section
/-! DEFINITION. The word types of the block: bytes (frame buffer cells, serial bytes, reply bytes), command words and
the 72-bit reply port (30_encoding.md R71, R82, R88). -/

namespace Sys2Proof

/-- A byte: a serial byte, a frame buffer cell or a byte of a bus reply (R9 `UInt8`). -/
abbrev Byte := BitVec 8

/-- A command word on the port `cmd` (R82, R83). -/
abbrev CmdWord := BitVec 32

/-- The operand port `snap_data`: `r[0]` at bits 71:64 through `r[8]` at bits 7:0 (R82). -/
abbrev SnapData := BitVec 72

end Sys2Proof
end

