-- ==== Sys2Proof/Syntax.lean ====
section
/-! DEFINITION. The instructions: one constructor for every row of spec/opcode_table.json, in its three formats
(`cmd32`, `serial_byte`, `frame_kind`), with the operand types they use. -/

namespace Sys2Proof

/-- The kind of a channel (R12): encoder (0, frame letter `e`) or button (1, frame letter `b`). -/
inductive Kind where
  | encoder
  | button
deriving DecidableEq, Repr

/-- The width of a channel value of this kind (R22, R30, R31, R57): encoders 7 bits, buttons 1 bit. -/
abbrev Kind.width : Kind → Nat
  | .encoder => 7
  | .button => 1

/-- The class of a serial byte (30_encoding.md R71). -/
inductive ByteClass where
  | term
  | noise
  | ord
deriving DecidableEq, Repr

/-- The instructions, one constructor per row of spec/opcode_table.json. The first eleven are the operations the host
issues (R89). The two `reserved` rows are words that select no operation (R90). The last eight are the encodings inside
an operation: a serial byte the Frame Receiver takes (R71) and a kind byte the Message Parser dispatches on (R74). -/
inductive Instr where
  /-- NOP (44_status_control.md R220). -/
  | nop
  /-- RXB: receive one byte (41_frame_receiver.md R136). -/
  | rxb (b : Byte)
  /-- PARSE: consume the held frame (42_message_parser.md R167). -/
  | parse
  /-- POLL with `V` = 1: receive one byte, then parse (42_message_parser.md R170). -/
  | poll (b : Byte)
  /-- POLL with `V` = 0, written `POLL -`: parse alone (42_message_parser.md R170). -/
  | pollNb
  /-- APPLY: apply a message given on the command port (42_message_parser.md R168). -/
  | apply (k : Kind) (idx : BitVec 8) (imm : BitVec 16)
  /-- DIFF: differ one channel (40_bus_differ.md R105). -/
  | diff (k : Kind) (idx : BitVec 8) (imm : BitVec 16)
  /-- SNAP: apply a bus reply of `n` delivered bytes (43_event_sink.md R190); the bytes stand on `snap_data`. -/
  | snap (n : BitVec 4)
  /-- DRAIN: read and clear the changed flags (43_event_sink.md R194). -/
  | drain
  /-- READ: read one channel (43_event_sink.md R196). -/
  | read (k : Kind) (idx : BitVec 8)
  /-- RDSTAT: read status (44_status_control.md R221). -/
  | rdstat
  /-- RESERVED, `OP` in 0xA..0xB (R90); `low` is bits 28:0, which no rule reads. -/
  | reservedAB (low : BitVec 29)
  /-- RESERVED, `OP` in 0xC..0xF (R90); `low` is bits 29:0, which no rule reads. -/
  | reservedCF (low : BitVec 30)
  /-- TERM: the serial byte `';'` (R71, R133). -/
  | term
  /-- NOISE_NUL: the serial byte `'\0'` (R71, R135). -/
  | noiseNul
  /-- NOISE_LF: the serial byte `'\n'` (R71, R135). -/
  | noiseLf
  /-- NOISE_CR: the serial byte `'\r'` (R71, R135). -/
  | noiseCr
  /-- ORD: every serial byte the four rows above do not match (R71, R131, R132). -/
  | ord (b : Byte)
  /-- EncoderUpdate: the kind byte `'e'` of a held frame (R74, R161). -/
  | encoderUpdate
  /-- ButtonUpdate: the kind byte `'b'` of a held frame (R74, R161). -/
  | buttonUpdate
  /-- UnknownKind: every other kind byte of a held frame (R74, R161). -/
  | unknownKind (b : Byte)
deriving DecidableEq, Repr

end Sys2Proof
end

