-- ==== Sys2Proof/Machine/State.lean ====
section
/-! DEFINITION. The state of the block (10_state.md R22) and of its ports (30_encoding.md R82), the output records
(R84), the reasons a step can stop, and the state right after reset (70_reset_and_hazards.md R271). -/

namespace Sys2Proof.Machine

/-! ### The block -/

/-- `RX.state` (R23): 1 bit, 0 = `Idle`, 1 = `Receiving`. -/
inductive RxState where
  | idle
  | receiving
deriving DecidableEq, Repr

/-- The frame buffer's cells as (index, byte) pairs: strictly rising indices, no entry equal to what an unlisted index
reads as (`Memory.wf`). -/
abbrev Memory := List Host.Cell

/-- One channel of the channel table (R29 to R33), with values of `w` bits. -/
structure Chan (w : Nat) where
  /-- `cur[i]`: the current value, which is the differ's cache entry too (R30, R31). -/
  cur : BitVec w
  /-- `prev[i]`: the value before the last update that changed it (R32). -/
  prev : BitVec w
  /-- `chg[i]`: the sticky changed flag (R33). -/
  chg : Bool
deriving DecidableEq, Repr

/-- A channel after reset (R271). -/
abbrev Chan.zero {w : Nat} : Chan w := { cur := 0, prev := 0, chg := false }

/-- The errors the block records (60_exceptions.md R240). -/
inductive ErrorKind where
  | transportOverflow
  | parseErrorUnknownKind
  | parseErrorMalformed
  | channelOutOfRange
  | busTransactionFailure
deriving DecidableEq, Repr

/-- The state of a block with `n` channels in each bank: every field of the summary R22. -/
structure Block (n : Nat) where
  /-- `RX.state` (R23). -/
  rxState : RxState
  /-- `RX.len` (R24): 5 bits. -/
  rxLen : BitVec 5
  /-- `RX.msg_ready` (R25). -/
  msgReady : Bool
  /-- `FB[0..31]` (R26). -/
  fb : Memory
  /-- The encoder bank `ENC` (R29, R30): 7-bit values. -/
  enc : Vector (Chan 7) n
  /-- The button bank `BTN` (R29, R31): 1-bit values, 1 = pressed. -/
  btn : Vector (Chan 1) n
  /-- `CNT.ovf` (R35): `TransportOverflow` events. -/
  cntOvf : BitVec 16
  /-- `CNT.unk` (R35): `ParseError::UnknownKind` events. -/
  cntUnk : BitVec 16
  /-- `CNT.mal` (R35): malformed `ParseError` events. -/
  cntMal : BitVec 16
  /-- `CNT.rng` (R35): `ChannelOutOfRange` drops. -/
  cntRng : BitVec 16
  /-- `CNT.bus` (R35): `BusTransactionFailure` events. -/
  cntBus : BitVec 16
  /-- `ERR.last` (R36): the code of the last error recorded, 0 if none. -/
  errLast : BitVec 3
deriving DecidableEq, Repr

/-- The reset values of R271, with no frame buffer cell listed (log entry 2). -/
abbrev Block.zero (n : Nat) : Block n where
  rxState := .idle
  rxLen := 0
  msgReady := false
  fb := []
  enc := Vector.replicate n Chan.zero
  btn := Vector.replicate n Chan.zero
  cntOvf := 0
  cntUnk := 0
  cntMal := 0
  cntRng := 0
  cntBus := 0
  errLast := 0

/-! ### Output records (R84) -/

/-- The outputs of RXB. -/
structure RxOut where
  accepted : Bool
  completed : Bool
  overflow : Bool
deriving DecidableEq, Repr

/-- `outcome` of PARSE, POLL and APPLY. -/
inductive ParseOutcome where
  | none
  | applied
  | unknown
  | malformed
  | range
deriving DecidableEq, Repr

/-- The outputs of PARSE and APPLY. A record that names no channel has kind 0 (encoder), channel 0 and value 0. -/
structure ParseOut where
  outcome : ParseOutcome
  kind : Kind
  ch : Nat
  value : Nat
  changed : Bool
deriving DecidableEq, Repr

/-- The outputs of RDSTAT. -/
structure Status where
  rxState : RxState
  rxLen : BitVec 5
  msgReady : Bool
  lastErr : BitVec 3
  cntOvf : BitVec 16
  cntUnk : BitVec 16
  cntMal : BitVec 16
  cntRng : BitVec 16
  cntBus : BitVec 16
  anyChanged : Bool
deriving DecidableEq, Repr

/-- What stands on the output port `resp`: the record of the operation just done (R82, R84). -/
inductive Resp (n : Nat) where
  /-- No fields: NOP's record, and what stands there before any operation since reset (log entry 4). -/
  | none
  | rxb (r : RxOut)
  /-- PARSE and APPLY. -/
  | parse (p : ParseOut)
  | poll (r : RxOut) (p : ParseOut)
  | diff (storedValue : Nat) (changed : Bool)
  | snap (ok : Bool) (encChanged btnChanged : BitVec 4)
  | drain (emask bmask : BitVec n)
  | read (cur prev : Nat) (chg : Bool)
  | rdstat (st : Status)
deriving DecidableEq, Repr

/-! ### Ports and the whole state -/

/-- What the host puts on the input ports for one step (R82, R83): `rst`, at most one command word, and `snap_data`. -/
structure PortInput where
  rst : Bool
  cmd : Option CmdWord
  snapData : SnapData
deriving DecidableEq, Repr

/-- The whole state: the block, its operand port, what the host has put on the ports and the block has not yet taken
(oldest first; log entry 3), and the output port. -/
structure State where
  block : Block Config.isc.nCh
  snapData : SnapData
  inputs : List PortInput
  resp : Resp Config.isc.nCh
deriving DecidableEq, Repr

/-- The machine right after reset (R271, R272): no command issued yet. -/
def State.reset : State where
  block := Block.zero Config.isc.nCh
  snapData := 0
  inputs := []
  resp := .none

/-! ### Why a step can stop -/

/-- A host fault (00_scope.md R8, 60_exceptions.md R243) or an access to a cell that does not exist. -/
inductive Fault where
  /-- `host_fault`: a word with `OP` in 0xA..0xF (R90, U3). Raised by the two RESERVED rows. Safe: the spec says a model
  must treat it as a fault. -/
  | reservedOpcode
  /-- `host_fault`: a field the operation does not use is not 0 (R91, U4). Raised by the step when decoding rejects the
  word. Safe. -/
  | unusedField
  /-- `host_fault(SnapLengthOver9)` (R190, U5). Raised by SNAP, and by the step when decoding rejects the word. Safe. -/
  | snapLengthOver9
  /-- `host_fault(DiffIndexOutOfRange)` (R105, U6). Raised by DIFF. Safe. -/
  | diffIndexOutOfRange
  /-- `host_fault(ReadIndexOutOfRange)` (R196, U7). Raised by READ. Safe. -/
  | readIndexOutOfRange
  /-- A frame buffer access outside 0..31, which R51 does not define. Raised by `memRead`, `memWrite` and the search for
  a terminator; no state reachable from reset raises it (R27, R51). Safe. -/
  | fbIndexOutOfRange
deriving DecidableEq, Repr

/-- What the model has no step for. -/
inductive Refusal where
  /-- An instruction without a meaning. Raised by no arm of `exec`. Safe. -/
  | notModelled (mnemonic : String)
  /-- A command presented while `rst` is asserted (R270, U13: `refuse`). Raised by the step. Safe. -/
  | commandDuringReset
deriving DecidableEq, Repr

end Sys2Proof.Machine
end

