-- ==== Sys2Proof/Machine/Flags.lean ====
section
/-! DEFINITION. Everything computed from the flags: the level outputs (10_state.md R37), the masks of DRAIN and SNAP
(43_event_sink.md R190, R194) and the sequence a pair of drain masks stands for (R195). -/

namespace Sys2Proof.Machine

/-- `msg_ready_o = RX.msg_ready` (R37). -/
def Block.msgReadyO {n : Nat} (s : Block n) : Bool := s.msgReady

/-- `rx_busy_o = (RX.state = Receiving)` (R37). -/
def Block.rxBusyO {n : Nat} (s : Block n) : Bool := decide (s.rxState = .receiving)

/-- `any_changed_o`: the OR of every `ENC.chg[i]` and every `BTN.chg[i]` (R37). -/
def Block.anyChangedO {n : Nat} (s : Block n) : Bool :=
  s.enc.toList.any (fun c => c.chg) || s.btn.toList.any (fun c => c.chg)

/-- `Σ_{i < N_CH} chg[i] · 2^i` of one bank, an `N_CH`-bit mask (R194). -/
def chgMask {w n : Nat} (v : Vector (Chan w) n) : BitVec n := BitVec.ofFnLE (fun i : Fin n => v[i].chg)

/-- A bank with every `chg` flag 0 (R194). -/
def clearChg {w n : Nat} (v : Vector (Chan w) n) : Vector (Chan w) n :=
  Vector.ofFn (fun i : Fin n => { v[i] with chg := false })

/-- A 4-bit change mask with bit `i` set to `c` (R190 `ec[i] <- c`, on a mask whose bit `i` is 0). -/
def setMaskBit (m : BitVec 4) (i : Nat) (c : Bool) : BitVec 4 := if c then m ||| (1#4 <<< i) else m

/-- The indices of the set bits of a mask, ascending. -/
def maskIndices {n : Nat} (m : BitVec n) : List Nat := (List.range n).filter (fun i => m.getLsbD i)

/-- The `drain_changed()` sequence of a pair of masks (R195): encoders ascending, then buttons ascending. -/
def drainSequence {n : Nat} (emask bmask : BitVec n) : List (Kind × Nat) :=
  (maskIndices emask).map (fun i => (Kind.encoder, i)) ++ (maskIndices bmask).map (fun i => (Kind.button, i))

end Sys2Proof.Machine
end

