-- ==== Sys2Proof/Machine/Ops.lean ====
section
/-! DEFINITION. The named operations every instruction is written over: the frame buffer primitives (20_memory.md R51),
recording an error (60_exceptions.md R241), the channel table and the differ update (40_bus_differ.md R101), the reset
step (70_reset_and_hazards.md R271), and completing an operation with its outputs (00_scope.md R8). -/

namespace Sys2Proof.Machine

/-! ### The frame buffer -/

/-- What a frame buffer cell that nothing has written reads as (DESIGN CHOICE, log entry 2: R26 leaves it unspecified). -/
def Memory.unlisted : Byte := 0x00#8

/-- The byte at an index. -/
def Memory.read : Memory → Nat → Byte
  | [], _ => Memory.unlisted
  | c :: m, a => if a = c.1 then c.2 else Memory.read m a

/-- The memory with one byte replaced, in canonical form. -/
def Memory.write : Memory → Nat → Byte → Memory
  | [], a, v => if v = Memory.unlisted then [] else [(a, v)]
  | c :: m, a, v =>
    if a < c.1 then (if v = Memory.unlisted then c :: m else (a, v) :: c :: m)
    else if a = c.1 then (if v = Memory.unlisted then m else (a, v) :: m)
    else c :: Memory.write m a v

/-- The canonical form: strictly rising indices below `FB_CAP`, and no entry that an unlisted cell would read as. -/
def Memory.wf : Memory → Bool
  | [] => true
  | c :: m => decide (c.1 < Config.fbCap) && decide (c.2 ≠ Memory.unlisted) && m.all (fun d => decide (c.1 < d.1))
      && Memory.wf m

/-- `MemRead(a, 1)` (R10, R51), defined for `0 ≤ a ≤ 31`. -/
def memRead {n : Nat} (s : Block n) (a : Nat) : Except Fault Byte :=
  if a < Config.fbCap then .ok (s.fb.read a) else .error .fbIndexOutOfRange

/-- `MemWrite(a, 1, v)` (R10, R51), defined for `0 ≤ a ≤ 31`. -/
def memWrite {n : Nat} (a : Nat) (v : Byte) (s : Block n) : Except Fault (Block n) :=
  if a < Config.fbCap then .ok { s with fb := s.fb.write a v } else .error .fbIndexOutOfRange

/-! ### Errors -/

/-- The code of an error (R240). -/
def ErrorKind.code : ErrorKind → BitVec 3
  | .transportOverflow => 1
  | .parseErrorUnknownKind => 2
  | .parseErrorMalformed => 3
  | .channelOutOfRange => 4
  | .busTransactionFailure => 5

/-- `raise E()` (R241): `ERR.last <- c` and `CNT.x <- (CNT.x + 1) mod 2^16`, and nothing else. It is no trap: the
operation goes on to its `return`. This is the block's one exception operation; there is no return from it (R246, R247). -/
def raise {n : Nat} (e : ErrorKind) (s : Block n) : Block n :=
  let s1 := { s with errLast := e.code }
  match e with
  | .transportOverflow => { s1 with cntOvf := s1.cntOvf + 1 }
  | .parseErrorUnknownKind => { s1 with cntUnk := s1.cntUnk + 1 }
  | .parseErrorMalformed => { s1 with cntMal := s1.cntMal + 1 }
  | .channelOutOfRange => { s1 with cntRng := s1.cntRng + 1 }
  | .busTransactionFailure => { s1 with cntBus := s1.cntBus + 1 }

/-! ### The channel table -/

/-- Channel `(k, i)` of the table (R10 `BANK(k)`, R29). -/
def Block.chan {n : Nat} (s : Block n) (k : Kind) (i : Fin n) : Chan k.width :=
  match k with
  | .encoder => s.enc[i]
  | .button => s.btn[i]

/-- The block with channel `(k, i)` replaced. -/
def Block.setChan {n : Nat} (s : Block n) (k : Kind) (i : Fin n) (c : Chan k.width) : Block n :=
  match k with
  | .encoder => { s with enc := s.enc.set i c }
  | .button => { s with btn := s.btn.set i c }

/-- `differ_update(k, i, u)` (R101): compare, and on a mismatch write `prev`, `cur` and `chg`; the returned flag says
whether there was a mismatch. -/
def differUpdate {n : Nat} (k : Kind) (i : Fin n) (u : BitVec k.width) (s : Block n) : Block n × Bool :=
  let c := s.chan k i
  if u ≠ c.cur then (s.setChan k i { cur := u, prev := c.cur, chg := true }, true)
  else (s, false)

/-! ### Reset -/

/-- The reset step (R271). The frame buffer's cells are left as they stand, since R271 leaves them unspecified
(DESIGN CHOICE, log entry 2). -/
def Block.resetStep {n : Nat} (s : Block n) : Block n :=
  { Block.zero n with fb := s.fb }

/-! ### Completing an operation -/

/-- What an operation does to a block with `n` channels in each bank (R8): a new block and the record it puts on `resp`,
or a fault with no state written (R244). -/
abbrev BlockResult (n : Nat) := Except Fault (Block n × Resp n)

/-- The outputs of an operation as the record of R84 that `out` names. -/
def record {n : Nat} {α : Type} (out : α → Resp n) (r : Except Fault (Block n × α)) : BlockResult n :=
  match r with
  | .ok x => .ok (x.1, out x.2)
  | .error e => .error e

/-- The step of an operation (R8): `put` is the state with its block and its record replaced. -/
def completeBy {σ : Type} {n : Nat} (put : Block n → Resp n → σ) (r : BlockResult n) : Host.Outcome σ Fault Refusal :=
  match r with
  | .ok x => .next (put x.1 x.2)
  | .error e => .fault e

/-- The step of an operation on this hardware. -/
def complete (s : State) (r : BlockResult Config.isc.nCh) : Host.Outcome State Fault Refusal :=
  completeBy (fun b o => { s with block := b, resp := o }) r

end Sys2Proof.Machine
end

