-- ==== Sys2Proof/Machine/Control.lean ====
section
/-! DEFINITION. Status and control (44_status_control.md): NOP, RDSTAT, and the reserved words (30_encoding.md R90). -/

namespace Sys2Proof.Machine

/-- The record of RDSTAT (R221), all from one state (R57). -/
def Block.status {n : Nat} (s : Block n) : Status where
  rxState := s.rxState
  rxLen := s.rxLen
  msgReady := s.msgReady
  lastErr := s.errLast
  cntOvf := s.cntOvf
  cntUnk := s.cntUnk
  cntMal := s.cntMal
  cntRng := s.cntRng
  cntBus := s.cntBus
  anyChanged := s.anyChangedO

/-- NOP on the block (R220). -/
def nopOp {n : Nat} (s : Block n) : BlockResult n := .ok (s, .none)

/-- RDSTAT on the block (R221). -/
def rdstatOp {n : Nat} (s : Block n) : BlockResult n := .ok (s, .rdstat s.status)

/-- RESERVED, `OP` in 0xA..0xB: a host fault (R90). -/
def reservedABOp {n : Nat} (_low : BitVec 29) (_s : Block n) : BlockResult n := .error .reservedOpcode

/-- RESERVED, `OP` in 0xC..0xF: a host fault (R90). -/
def reservedCFOp {n : Nat} (_low : BitVec 30) (_s : Block n) : BlockResult n := .error .reservedOpcode

/-- NOP (R220). -/
def execNop (s : State) : Host.Outcome State Fault Refusal := complete s (nopOp s.block)

/-- RDSTAT (R221). -/
def execRdstat (s : State) : Host.Outcome State Fault Refusal := complete s (rdstatOp s.block)

/-- RESERVED, `OP` in 0xA..0xB (R90). -/
def execReservedAB (low : BitVec 29) (s : State) : Host.Outcome State Fault Refusal :=
  complete s (reservedABOp low s.block)

/-- RESERVED, `OP` in 0xC..0xF (R90). -/
def execReservedCF (low : BitVec 30) (s : State) : Host.Outcome State Fault Refusal :=
  complete s (reservedCFOp low s.block)

end Sys2Proof.Machine
end

