-- ==== Sys2Proof/WellFormed.lean ====
section
/-! DEFINITION. Which terms of `Instr` stand for an encoding: the checks that the type of an operand does not make. -/

namespace Sys2Proof

/-- An `Instr` term that some encoding stands for. SNAP delivers at most 9 bytes (R81, R91); ORD is a byte that no
exact serial row matches (R71); UnknownKind is a byte that no exact kind row matches (R74). Every other operand is as
wide as its field. An index at or above `N_CH` is well formed: what it does is the operation's to say (R52). -/
def Instr.wf : Instr → Bool
  | .nop => true
  | .rxb _ => true
  | .parse => true
  | .poll _ => true
  | .pollNb => true
  | .apply _ _ _ => true
  | .diff _ _ _ => true
  | .snap n => decide (n.toNat ≤ 9)
  | .drain => true
  | .read _ _ => true
  | .rdstat => true
  | .reservedAB _ => true
  | .reservedCF _ => true
  | .term => true
  | .noiseNul => true
  | .noiseLf => true
  | .noiseCr => true
  | .ord b => decide (b ≠ 0x3B#8 ∧ b ≠ 0x00#8 ∧ b ≠ 0x0A#8 ∧ b ≠ 0x0D#8)
  | .encoderUpdate => true
  | .buttonUpdate => true
  | .unknownKind b => decide (b ≠ 0x65#8 ∧ b ≠ 0x62#8)

end Sys2Proof
end

