-- ==== Sys2Proof/Decode.lean ====
section
/-! DEFINITION. The three encodings of the block, read and written: serial bytes (30_encoding.md R71), kind bytes
(R74) and command words (R88 to R92). The decoder is total and rejects by name; the encoder is written from the same
tables; the match and mask rows of R89 stand beside them. -/

namespace Sys2Proof

/-! ### Character codes (R70) -/

namespace Ascii

/-- `'\0'`. -/
abbrev nul : Byte := 0x00#8
/-- `'\n'`. -/
abbrev lf : Byte := 0x0A#8
/-- `'\r'`. -/
abbrev cr : Byte := 0x0D#8
/-- `'-'`. -/
abbrev minus : Byte := 0x2D#8
/-- `'0'`. -/
abbrev digit0 : Byte := 0x30#8
/-- `'9'`. -/
abbrev digit9 : Byte := 0x39#8
/-- `':'`, the separator of the two fields. -/
abbrev colon : Byte := 0x3A#8
/-- `';'`, the terminator. -/
abbrev semi : Byte := 0x3B#8
/-- `'b'`. -/
abbrev lowerB : Byte := 0x62#8
/-- `'e'`. -/
abbrev lowerE : Byte := 0x65#8

end Ascii

/-! ### Serial bytes and kind bytes -/

/-- The class of a serial byte, tried in the order of R71: `TERM`, `NOISE`, then `ORD` for every other byte. -/
def classify (b : Byte) : ByteClass :=
  if b = Ascii.semi then .term
  else if b = Ascii.lf ∨ b = Ascii.cr ∨ b = Ascii.nul then .noise
  else .ord

/-- Kind dispatch on byte 0 of a frame (R74, R161): `e` and `b` only, in lower case; `none` is
`ParseError::UnknownKind`. -/
def kindOf (b : Byte) : Option Kind :=
  if b = Ascii.lowerE then some .encoder
  else if b = Ascii.lowerB then some .button
  else none

/-- The serial_byte row that a byte matches. -/
def decodeSerial (b : Byte) : Instr :=
  if b = Ascii.semi then .term
  else if b = Ascii.nul then .noiseNul
  else if b = Ascii.lf then .noiseLf
  else if b = Ascii.cr then .noiseCr
  else .ord b

/-- The frame_kind row that a kind byte matches. -/
def decodeKind (b : Byte) : Instr :=
  match kindOf b with
  | some .encoder => .encoderUpdate
  | some .button => .buttonUpdate
  | none => .unknownKind b

/-! ### Command words -/

/-- The fields of a command word (R88). -/
structure CmdFields where
  op : BitVec 4
  k : BitVec 1
  v : BitVec 1
  z : BitVec 2
  idx : BitVec 8
  imm : BitVec 16
deriving DecidableEq, Repr

/-- The fields of a word, at the bit positions of R88. -/
def CmdFields.ofWord (w : CmdWord) : CmdFields where
  op := w.extractLsb' 28 4
  k := w.extractLsb' 27 1
  v := w.extractLsb' 26 1
  z := w.extractLsb' 24 2
  idx := w.extractLsb' 16 8
  imm := w.extractLsb' 0 16

/-- The word of some fields: `OP` in the top bits, `IMM` in the low ones (R88). -/
def CmdFields.toWord (f : CmdFields) : CmdWord :=
  f.op ++ f.k ++ f.v ++ f.z ++ f.idx ++ f.imm

/-- `K`: 0 = encoder, 1 = button (R88). -/
def Kind.ofBit (k : BitVec 1) : Kind := if k = 0#1 then .encoder else .button

/-- The bit of field `K` that names a kind (R88). -/
def Kind.bit : Kind → BitVec 1
  | .encoder => 0#1
  | .button => 1#1

/-- Why a command word decodes to no operation. -/
inductive DecodeError where
  /-- `OP` is 0x0..0x9 and a field the operation does not use is not 0 (R91). -/
  | unusedField
  /-- SNAP with `n` above 9 (R91, R190). -/
  | snapLengthOver9
deriving DecidableEq, Repr

/-- `i` if every field it does not use is 0, else the rejection of R91. -/
def decodeIf (c : Bool) (i : Instr) : Except DecodeError Instr :=
  if c then .ok i else .error .unusedField

/-- Decoding of a command word (R89, R90, R91): every word is one operation, a reserved word or a named rejection. -/
def decodeCmd (w : CmdWord) : Except DecodeError Instr :=
  let f := CmdFields.ofWord w
  match f.op.toNat with
  | 0 => decodeIf (f.k = 0 ∧ f.v = 0 ∧ f.z = 0 ∧ f.idx = 0 ∧ f.imm = 0) .nop
  | 1 => decodeIf (f.k = 0 ∧ f.v = 0 ∧ f.z = 0 ∧ f.idx = 0 ∧ f.imm.extractLsb' 8 8 = 0)
      (.rxb (f.imm.extractLsb' 0 8))
  | 2 => decodeIf (f.k = 0 ∧ f.v = 0 ∧ f.z = 0 ∧ f.idx = 0 ∧ f.imm = 0) .parse
  | 3 =>
    if f.v = 1 then
      decodeIf (f.k = 0 ∧ f.z = 0 ∧ f.idx = 0 ∧ f.imm.extractLsb' 8 8 = 0) (.poll (f.imm.extractLsb' 0 8))
    else decodeIf (f.k = 0 ∧ f.z = 0 ∧ f.idx = 0 ∧ f.imm = 0) .pollNb
  | 4 => decodeIf (f.v = 0 ∧ f.z = 0) (.apply (Kind.ofBit f.k) f.idx f.imm)
  | 5 => decodeIf (f.v = 0 ∧ f.z = 0) (.diff (Kind.ofBit f.k) f.idx f.imm)
  | 6 =>
    if f.k = 0 ∧ f.v = 0 ∧ f.z = 0 ∧ f.idx = 0 ∧ f.imm.extractLsb' 4 12 = 0 then
      if (f.imm.extractLsb' 0 4).toNat ≤ 9 then .ok (.snap (f.imm.extractLsb' 0 4)) else .error .snapLengthOver9
    else .error .unusedField
  | 7 => decodeIf (f.k = 0 ∧ f.v = 0 ∧ f.z = 0 ∧ f.idx = 0 ∧ f.imm = 0) .drain
  | 8 => decodeIf (f.v = 0 ∧ f.z = 0 ∧ f.imm = 0) (.read (Kind.ofBit f.k) f.idx)
  | 9 => decodeIf (f.k = 0 ∧ f.v = 0 ∧ f.z = 0 ∧ f.idx = 0 ∧ f.imm = 0) .rdstat
  | 10 => .ok (.reservedAB (w.extractLsb' 0 29))
  | 11 => .ok (.reservedAB (w.extractLsb' 0 29))
  | _ => .ok (.reservedCF (w.extractLsb' 0 30))

/-- One code of one of the three formats of spec/opcode_table.json. -/
inductive Code where
  /-- `cmd32`: a word on the port `cmd`. -/
  | cmd (w : CmdWord)
  /-- `serial_byte`: a byte the Frame Receiver takes. -/
  | serial (b : Byte)
  /-- `frame_kind`: byte 0 of a held frame. -/
  | kind (b : Byte)
deriving DecidableEq, Repr

/-- The decoder of all three formats. -/
def decode : Code → Except DecodeError Instr
  | .cmd w => decodeCmd w
  | .serial b => .ok (decodeSerial b)
  | .kind b => .ok (decodeKind b)

/-! ### The encoder -/

/-- A command word from its fields, the others 0 (R88). -/
def cmdWord (op : BitVec 4) (k : BitVec 1) (v : BitVec 1) (idx : BitVec 8) (imm : BitVec 16) : CmdWord :=
  CmdFields.toWord { op := op, k := k, v := v, z := 0#2, idx := idx, imm := imm }

/-- The code of an instruction: the words of R89 and R90, the bytes of R71 and R74. -/
def encode : Instr → Code
  | .nop => .cmd (cmdWord 0x0#4 0 0 0 0)
  | .rxb b => .cmd (cmdWord 0x1#4 0 0 0 (0#8 ++ b))
  | .parse => .cmd (cmdWord 0x2#4 0 0 0 0)
  | .poll b => .cmd (cmdWord 0x3#4 0 1 0 (0#8 ++ b))
  | .pollNb => .cmd (cmdWord 0x3#4 0 0 0 0)
  | .apply k idx imm => .cmd (cmdWord 0x4#4 k.bit 0 idx imm)
  | .diff k idx imm => .cmd (cmdWord 0x5#4 k.bit 0 idx imm)
  | .snap n => .cmd (cmdWord 0x6#4 0 0 0 (0#12 ++ n))
  | .drain => .cmd (cmdWord 0x7#4 0 0 0 0)
  | .read k idx => .cmd (cmdWord 0x8#4 k.bit 0 idx 0)
  | .rdstat => .cmd (cmdWord 0x9#4 0 0 0 0)
  | .reservedAB low => .cmd (0b101#3 ++ low)
  | .reservedCF low => .cmd (0b11#2 ++ low)
  | .term => .serial Ascii.semi
  | .noiseNul => .serial Ascii.nul
  | .noiseLf => .serial Ascii.lf
  | .noiseCr => .serial Ascii.cr
  | .ord b => .serial b
  | .encoderUpdate => .kind Ascii.lowerE
  | .buttonUpdate => .kind Ascii.lowerB
  | .unknownKind b => .kind b

/-! ### The match and mask rows of R89 and R90 -/

/-- A cmd32 row of the opcode table: a word matches it when `word &&& mask = value` (R89). -/
structure CmdRow where
  value : CmdWord
  mask : CmdWord
deriving DecidableEq, Repr

/-- Whether a word matches a row. -/
def CmdRow.matches (r : CmdRow) (w : CmdWord) : Bool := w &&& r.mask = r.value

/-- The row of an instruction of format cmd32 (R89, R90; the two RESERVED rows as the opcode table has them). -/
def Instr.cmdRow : Instr → Option CmdRow
  | .nop => some ⟨0x00000000#32, 0xFFFFFFFF#32⟩
  | .rxb _ => some ⟨0x10000000#32, 0xFFFFFF00#32⟩
  | .parse => some ⟨0x20000000#32, 0xFFFFFFFF#32⟩
  | .poll _ => some ⟨0x34000000#32, 0xFFFFFF00#32⟩
  | .pollNb => some ⟨0x30000000#32, 0xFFFFFFFF#32⟩
  | .apply _ _ _ => some ⟨0x40000000#32, 0xF7000000#32⟩
  | .diff _ _ _ => some ⟨0x50000000#32, 0xF7000000#32⟩
  | .snap _ => some ⟨0x60000000#32, 0xFFFFFFF0#32⟩
  | .drain => some ⟨0x70000000#32, 0xFFFFFFFF#32⟩
  | .read _ _ => some ⟨0x80000000#32, 0xF700FFFF#32⟩
  | .rdstat => some ⟨0x90000000#32, 0xFFFFFFFF#32⟩
  | .reservedAB _ => some ⟨0xA0000000#32, 0xE0000000#32⟩
  | .reservedCF _ => some ⟨0xC0000000#32, 0xC0000000#32⟩
  | .term => none
  | .noiseNul => none
  | .noiseLf => none
  | .noiseCr => none
  | .ord _ => none
  | .encoderUpdate => none
  | .buttonUpdate => none
  | .unknownKind _ => none

/-- The thirteen cmd32 rows in the table's order. -/
def cmdRows : List CmdRow :=
  [ ⟨0x00000000#32, 0xFFFFFFFF#32⟩, ⟨0x10000000#32, 0xFFFFFF00#32⟩, ⟨0x20000000#32, 0xFFFFFFFF#32⟩,
    ⟨0x34000000#32, 0xFFFFFF00#32⟩, ⟨0x30000000#32, 0xFFFFFFFF#32⟩, ⟨0x40000000#32, 0xF7000000#32⟩,
    ⟨0x50000000#32, 0xF7000000#32⟩, ⟨0x60000000#32, 0xFFFFFFF0#32⟩, ⟨0x70000000#32, 0xFFFFFFFF#32⟩,
    ⟨0x80000000#32, 0xF700FFFF#32⟩, ⟨0x90000000#32, 0xFFFFFFFF#32⟩, ⟨0xA0000000#32, 0xE0000000#32⟩,
    ⟨0xC0000000#32, 0xC0000000#32⟩ ]

/-! ### The table's numbering -/

/-- The 8-bit row a byte selects when its format is not given: the six exact rows before a catch-all row, and of the
two catch-all rows ORD, which the table lists first (DESIGN CHOICE, log entry 8). -/
def decodeTableByte (b : Byte) : Instr :=
  match kindOf b with
  | some _ => decodeKind b
  | none => decodeSerial b

/-- The instruction of a table row's bits, bit 0 the least significant. A row of 8 bits is a serial or kind byte; every
other width is read as a command word, which is delivered whole and has no byte order (R55, R92). -/
def decodeTableWord (nbits w : Nat) : Option Instr :=
  if nbits = 8 then some (decodeTableByte (BitVec.ofNat 8 w))
  else
    match decodeCmd (BitVec.ofNat 32 w) with
    | .ok i => some i
    | .error _ => none

end Sys2Proof
end

