-- ==== Sys2Proof/Machine/Operands.lean ====
section
/-! DEFINITION. Operand forms: the value operands of the command word (30_encoding.md R88), the value policy
(40_bus_differ.md R100), the numeric fields and body of a frame (30_encoding.md R72 to R77, 42_message_parser.md R162)
and the parts of a bus reply (30_encoding.md R78 to R80). -/

namespace Sys2Proof.Machine

/-! ### Command word operands -/

/-- `zext(IDX)`: the channel index as an integer 0..255 (R88). -/
def zextIdx (idx : BitVec 8) : Nat := idx.toNat

/-- `sext_16(IMM)`: the value operand of APPLY and DIFF, -32768..32767 (R9, R88). -/
def sext16 (imm : BitVec 16) : Int := imm.toInt

/-- `clamp(v, lo, hi)` (R9). -/
def clamp (v lo hi : Int) : Int := if v < lo then lo else if v > hi then hi else v

/-- `norm(k, v)` (R100): an encoder value is clamped to [0, 127], a button value is 0 or 1. -/
def norm (k : Kind) (v : Int) : BitVec k.width :=
  match k with
  | .encoder => BitVec.ofInt 7 (clamp v 0 Config.encMax)
  | .button => if v = 0 then 0#1 else 1#1

/-! ### The text of a frame -/

/-- `DIGIT` (R72): 0x30..0x39. -/
def isDigit (b : Byte) : Bool := decide (Ascii.digit0 ≤ b ∧ b ≤ Ascii.digit9)

/-- `decval` (R77): the decimal value of a digit string, most significant digit first. -/
def decval (ds : List Byte) : Nat :=
  ds.foldl (fun acc d => acc * 10 + (d.toNat - Ascii.digit0.toNat)) 0

/-- `1*DIGIT` (R72) and its value. -/
def parseDigits (ds : List Byte) : Option Nat :=
  if ds ≠ [] ∧ ds.all isDigit then some (decval ds) else none

/-- `INT = ["-"] 1*DIGIT` (R72) and its exact value `intval` (R77). -/
def parseInt : List Byte → Option Int
  | [] => none
  | c :: ds =>
    if c = Ascii.minus then (parseDigits ds).map (fun v => -(v : Int))
    else (parseDigits (c :: ds)).map (fun v => (v : Int))

/-- The body of a frame (R75): it must be `INT ":" INT`. No `INT` holds a `':'`, so the first one splits it. -/
def decodeBody (body : List Byte) : Option (Int × Int) :=
  match body.dropWhile (fun b => b ≠ Ascii.colon) with
  | [] => none
  | _ :: s2 =>
    match parseInt (body.takeWhile (fun b => b ≠ Ascii.colon)), parseInt s2 with
    | some ch, some v => some (ch, v)
    | _, _ => none

/-- What `decode` returns for a frame (R162). -/
inductive FrameDecode where
  | unknown
  | malformed
  | ok (k : Kind) (ch v : Int)
deriving DecidableEq, Repr

/-- `decode` once the kind byte is dispatched (R162): the body is `f[1..k-1]`, empty when the frame has 2 bytes. -/
def decodeAs (kind : Option Kind) (f : List Byte) : FrameDecode :=
  match kind with
  | none => .unknown
  | some k =>
    match decodeBody (f.drop 1).dropLast with
    | some (ch, v) => .ok k ch v
    | none => .malformed

/-- `decode(f[0..k])` (R162): byte 0 dispatches the kind (R161), then the body must match (R163). -/
def decodeFrame (f : List Byte) : FrameDecode := decodeAs (f.head?.bind kindOf) f

/-! ### The bus reply -/

/-- Byte `r[j]` of the reply on `snap_data`: `r[0]` at bits 71:64 through `r[8]` at bits 7:0 (R82). -/
def replyByte (r : SnapData) (j : Nat) : Byte := r.extractLsb' (8 * (8 - j)) 8

/-- `w_i`, the 16-bit word of encoder `i`, high byte first (R79). -/
def replyWord (r : SnapData) (i : Nat) : BitVec 16 := replyByte r (2 * i) ++ replyByte r (2 * i + 1)

/-- `v_i`, the value of encoder `i`'s word (R79). -/
def replyEnc (p : Params) (r : SnapData) (i : Nat) : Int :=
  if p.snapEncSigned then (replyWord r i).toInt else ((replyWord r i).toNat : Int)

/-- `p_i = r[8][7 - i]`, button `i`'s bit as an integer (R80). -/
def replyBtn (r : SnapData) (i : Nat) : Int := if (replyByte r 8).getLsbD (7 - i) then 1 else 0

end Sys2Proof.Machine
end

