-- ==== Sys2Proof/Machine/Differ.lean ====
section
/-! DEFINITION. The Bus Differ's operation (40_bus_differ.md): DIFF. -/

namespace Sys2Proof.Machine

/-- `DIFF(K, IDX, IMM)` on the block (R105): an index at or above `N_CH` is a host fault; otherwise the normalised value
goes through the differ, and `stored_value` is `cur` after it. -/
def diffBlock (p : Params) (k : Kind) (idx : Nat) (v : Int) (s : Block p.nCh) :
    Except Fault (Block p.nCh × (Nat × Bool)) :=
  if h : idx < p.nCh then
    let i : Fin p.nCh := ⟨idx, h⟩
    let r := differUpdate k i (norm k v) s
    .ok (r.1, ((r.1.chan k i).cur.toNat, r.2))
  else .error .diffIndexOutOfRange

/-- DIFF on the block, with its record (R105). -/
def diffOp (p : Params) (k : Kind) (idx : BitVec 8) (imm : BitVec 16) (s : Block p.nCh) : BlockResult p.nCh :=
  record (fun x => .diff x.1 x.2) (diffBlock p k (zextIdx idx) (sext16 imm) s)

/-- DIFF (R105). -/
def execDiff (k : Kind) (idx : BitVec 8) (imm : BitVec 16) (s : State) : Host.Outcome State Fault Refusal :=
  complete s (diffOp Config.isc k idx imm s.block)

end Sys2Proof.Machine
end

