-- ==== Sys2Proof/Machine/Receiver.lean ====
section
/-! DEFINITION. The Frame Receiver (41_frame_receiver.md): RXB and the five serial byte rows. -/

namespace Sys2Proof.Machine

/-- RXB's outputs when the byte is taken and nothing completes (R130 to R132, R135). -/
abbrev RxOut.taken : RxOut := { accepted := true, completed := false, overflow := false }

/-- RXB's outputs when the byte is held (R128). -/
abbrev RxOut.held : RxOut := { accepted := false, completed := false, overflow := false }

/-- RXB's outputs on an overflow (R129). -/
abbrev RxOut.overflowed : RxOut := { accepted := true, completed := false, overflow := true }

/-- RXB's outputs when a frame completes (R133). -/
abbrev RxOut.framed : RxOut := { accepted := true, completed := true, overflow := false }

/-- The receiver presented with byte `b` of class `cls`, by the pseudocode of R136: the hold (R128), the overflow row
(R129), then the row of the state and the class (R130 to R135). -/
def receiveAs {n : Nat} (cls : ByteClass) (b : Byte) (s : Block n) : Except Fault (Block n × RxOut) :=
  if s.msgReady then .ok (s, RxOut.held)
  else if s.rxLen.toNat > Config.ovfLimit then
    .ok (raise .transportOverflow { s with rxLen := 0, rxState := .idle }, RxOut.overflowed)
  else
    match s.rxState, cls with
    | .idle, .term => .ok (s, RxOut.taken)
    | .idle, .noise => .ok (s, RxOut.taken)
    | .idle, .ord =>
      match memWrite 0 b s with
      | .ok s1 => .ok ({ s1 with rxLen := 1, rxState := .receiving }, RxOut.taken)
      | .error e => .error e
    | .receiving, .ord =>
      match memWrite s.rxLen.toNat b s with
      | .ok s1 => .ok ({ s1 with rxLen := s1.rxLen + 1 }, RxOut.taken)
      | .error e => .error e
    | .receiving, .term =>
      match memWrite s.rxLen.toNat Ascii.semi s with
      | .ok s1 =>
        match memWrite (s1.rxLen.toNat + 1) Ascii.nul s1 with
        | .ok s2 => .ok ({ s2 with msgReady := true, rxLen := 0, rxState := .idle }, RxOut.framed)
        | .error e => .error e
      | .error e => .error e
    | .receiving, .noise => .ok (s, RxOut.taken)

/-- `RXB(b)` on the block (R136), with the byte's class from R71 (R126). -/
def receive {n : Nat} (b : Byte) (s : Block n) : Except Fault (Block n × RxOut) := receiveAs (classify b) b s

/-- RXB on the block (R136). -/
def rxbOp {n : Nat} (b : Byte) (s : Block n) : BlockResult n := record .rxb (receive b s)

/-- TERM on the block: the receiver takes `';'` (R130, R133). -/
def termOp {n : Nat} (s : Block n) : BlockResult n := record .rxb (receiveAs .term Ascii.semi s)

/-- NOISE_NUL on the block: the receiver takes `'\0'` (R130, R135). -/
def noiseNulOp {n : Nat} (s : Block n) : BlockResult n := record .rxb (receiveAs .noise Ascii.nul s)

/-- NOISE_LF on the block: the receiver takes `'\n'` (R130, R135). -/
def noiseLfOp {n : Nat} (s : Block n) : BlockResult n := record .rxb (receiveAs .noise Ascii.lf s)

/-- NOISE_CR on the block: the receiver takes `'\r'` (R130, R135). -/
def noiseCrOp {n : Nat} (s : Block n) : BlockResult n := record .rxb (receiveAs .noise Ascii.cr s)

/-- ORD on the block: the receiver takes an ordinary byte (R131, R132). -/
def ordOp {n : Nat} (b : Byte) (s : Block n) : BlockResult n := record .rxb (receiveAs .ord b s)

/-- RXB (R136). -/
def execRxb (b : Byte) (s : State) : Host.Outcome State Fault Refusal := complete s (rxbOp b s.block)

/-- TERM (R130, R133). -/
def execTerm (s : State) : Host.Outcome State Fault Refusal := complete s (termOp s.block)

/-- NOISE_NUL (R130, R135). -/
def execNoiseNul (s : State) : Host.Outcome State Fault Refusal := complete s (noiseNulOp s.block)

/-- NOISE_LF (R130, R135). -/
def execNoiseLf (s : State) : Host.Outcome State Fault Refusal := complete s (noiseLfOp s.block)

/-- NOISE_CR (R130, R135). -/
def execNoiseCr (s : State) : Host.Outcome State Fault Refusal := complete s (noiseCrOp s.block)

/-- ORD (R131, R132). -/
def execOrd (b : Byte) (s : State) : Host.Outcome State Fault Refusal := complete s (ordOp b s.block)

end Sys2Proof.Machine
end

