-- ==== Sys2Proof/Machine/Parser.lean ====
section
/-! DEFINITION. The Message Parser (42_message_parser.md): PARSE, APPLY, POLL and the three frame kind rows. -/

namespace Sys2Proof.Machine

/-- A record that names no channel (R166, R167). -/
abbrev ParseOut.bare (o : ParseOutcome) : ParseOut :=
  { outcome := o, kind := .encoder, ch := 0, value := 0, changed := false }

/-- `apply_msg(kind, ch, v)` (R166): an index outside [0, N_CH) is dropped and recorded (R165); otherwise the normalised
value goes through the differ. -/
def applyMsg (p : Params) (k : Kind) (ch v : Int) (s : Block p.nCh) : Block p.nCh × ParseOut :=
  if h : 0 ≤ ch ∧ ch < (p.nCh : Int) then
    let i : Fin p.nCh := ⟨ch.toNat, by omega⟩
    let u := norm k v
    let r := differUpdate k i u s
    (r.1, { outcome := .applied, kind := k, ch := i.val, value := u.toNat, changed := r.2 })
  else (raise .channelOutOfRange s, ParseOut.bare .range)

/-- The bytes from cell `a` to the first `';'`, read in turn (R160). `fuel` is how many cells are left; with none left
the next read would be of a cell that does not exist (R51). -/
def frameFrom {n : Nat} (s : Block n) : (fuel a : Nat) → Except Fault (List Byte)
  | 0, _ => .error .fbIndexOutOfRange
  | fuel + 1, a =>
    match memRead s a with
    | .error e => .error e
    | .ok b =>
      if b = Ascii.semi then .ok [b]
      else
        match frameFrom s fuel (a + 1) with
        | .ok f => .ok (b :: f)
        | .error e => .error e

/-- The held frame `FB[0..k]`, `k` the least index with `FB[k] = ';'` (R28, R160). -/
def heldFrame {n : Nat} (s : Block n) : Except Fault (List Byte) := frameFrom s Config.fbCap 0

/-- `PARSE()` on the block by the pseudocode of R167, with the frame decoded by `dec`. -/
def parseWith (p : Params) (dec : List Byte → FrameDecode) (s : Block p.nCh) : Except Fault (Block p.nCh × ParseOut) :=
  if s.msgReady then
    let s1 := { s with msgReady := false }
    match heldFrame s1 with
    | .error e => .error e
    | .ok f =>
      match dec f with
      | .unknown => .ok (raise .parseErrorUnknownKind s1, ParseOut.bare .unknown)
      | .malformed => .ok (raise .parseErrorMalformed s1, ParseOut.bare .malformed)
      | .ok k ch v => .ok (applyMsg p k ch v s1)
  else .ok (s, ParseOut.bare .none)

/-- `PARSE()` on the block (R167). -/
def parseFrame (p : Params) (s : Block p.nCh) : Except Fault (Block p.nCh × ParseOut) := parseWith p decodeFrame s

/-- `POLL(V, b)` on the block (R170): RXB when a byte is given, then PARSE, in one step. -/
def pollBlock (p : Params) (byte : Option Byte) (s : Block p.nCh) :
    Except Fault (Block p.nCh × (RxOut × ParseOut)) :=
  match byte with
  | some b =>
    match receive b s with
    | .error e => .error e
    | .ok (s1, r) =>
      match parseFrame p s1 with
      | .error e => .error e
      | .ok (s2, o) => .ok (s2, (r, o))
  | none =>
    match parseFrame p s with
    | .error e => .error e
    | .ok (s2, o) => .ok (s2, (RxOut.held, o))

/-- PARSE on the block (R167). -/
def parseOp (p : Params) (s : Block p.nCh) : BlockResult p.nCh := record .parse (parseFrame p s)

/-- APPLY on the block (R168): `apply_msg(K, zext(IDX), sext_16(IMM))`. -/
def applyOp (p : Params) (k : Kind) (idx : BitVec 8) (imm : BitVec 16) (s : Block p.nCh) : BlockResult p.nCh :=
  record .parse (.ok (applyMsg p k (zextIdx idx) (sext16 imm) s))

/-- POLL with a byte, on the block (R170). -/
def pollOp (p : Params) (b : Byte) (s : Block p.nCh) : BlockResult p.nCh :=
  record (fun x => .poll x.1 x.2) (pollBlock p (some b) s)

/-- `POLL -` on the block (R170): PARSE alone, with the receiver's outputs 0. -/
def pollNbOp (p : Params) (s : Block p.nCh) : BlockResult p.nCh :=
  record (fun x => .poll x.1 x.2) (pollBlock p none s)

/-- EncoderUpdate on the block: the parser consumes the held frame, its kind byte dispatched as `'e'` (R161, R162). -/
def encoderUpdateOp (p : Params) (s : Block p.nCh) : BlockResult p.nCh :=
  record .parse (parseWith p (decodeAs (some .encoder)) s)

/-- ButtonUpdate on the block: the parser consumes the held frame, its kind byte dispatched as `'b'` (R161, R162). -/
def buttonUpdateOp (p : Params) (s : Block p.nCh) : BlockResult p.nCh :=
  record .parse (parseWith p (decodeAs (some .button)) s)

/-- UnknownKind on the block: the parser consumes the held frame, its kind byte `_b` no known kind; the rest is not
examined (R161). -/
def unknownKindOp (p : Params) (_b : Byte) (s : Block p.nCh) : BlockResult p.nCh :=
  record .parse (parseWith p (decodeAs none) s)

/-- PARSE (R167). -/
def execParse (s : State) : Host.Outcome State Fault Refusal := complete s (parseOp Config.isc s.block)

/-- APPLY (R168). -/
def execApply (k : Kind) (idx : BitVec 8) (imm : BitVec 16) (s : State) : Host.Outcome State Fault Refusal :=
  complete s (applyOp Config.isc k idx imm s.block)

/-- POLL with a byte (R170). -/
def execPoll (b : Byte) (s : State) : Host.Outcome State Fault Refusal := complete s (pollOp Config.isc b s.block)

/-- `POLL -` (R170). -/
def execPollNb (s : State) : Host.Outcome State Fault Refusal := complete s (pollNbOp Config.isc s.block)

/-- EncoderUpdate (R161, R162). -/
def execEncoderUpdate (s : State) : Host.Outcome State Fault Refusal :=
  complete s (encoderUpdateOp Config.isc s.block)

/-- ButtonUpdate (R161, R162). -/
def execButtonUpdate (s : State) : Host.Outcome State Fault Refusal := complete s (buttonUpdateOp Config.isc s.block)

/-- UnknownKind (R161). -/
def execUnknownKind (b : Byte) (s : State) : Host.Outcome State Fault Refusal :=
  complete s (unknownKindOp Config.isc b s.block)

end Sys2Proof.Machine
end

