-- ==== Sys2Proof/Machine/Sink.lean ====
section
/-! DEFINITION. The Input Event Sink (43_event_sink.md): SNAP, DRAIN, READ. -/

namespace Sys2Proof.Machine

/-- One pass of SNAP's loops (R190): channel `i` of bank `k` is skipped when it does not exist, else the sample goes
through the differ and bit `i` of the change mask is what the differ answers. -/
def snapChan (p : Params) (k : Kind) (sample : Int) (i : Nat) (x : Block p.nCh × BitVec 4) : Block p.nCh × BitVec 4 :=
  if h : i < p.nCh then
    let r := differUpdate k ⟨i, h⟩ (norm k sample) x.1
    (r.1, setMaskBit x.2 i r.2)
  else x

/-- The loop of R190 over the first `m` channels of bank `k`, whose samples are `sample 0`, …; the lower ones first. -/
def snapBank (p : Params) (k : Kind) (sample : Nat → Int) : Nat → Block p.nCh → Block p.nCh × BitVec 4
  | 0, s => (s, 0)
  | m + 1, s => snapChan p k (sample m) m (snapBank p k sample m s)

/-- `SNAP(n, r[0..8])` on the block (R190, R191): a reply of fewer than 9 bytes is recorded and not read; a complete one
updates the encoders, then the buttons. -/
def snapBlock (p : Params) (len : Nat) (r : SnapData) (s : Block p.nCh) :
    Except Fault (Block p.nCh × (Bool × BitVec 4 × BitVec 4)) :=
  if len > Config.busReplyLen then .error .snapLengthOver9
  else if len < Config.busReplyLen then .ok (raise .busTransactionFailure s, (false, 0, 0))
  else
    let e := snapBank p .encoder (replyEnc p r) Config.busChannels s
    let b := snapBank p .button (replyBtn r) Config.busChannels e.1
    .ok (b.1, (true, e.2, b.2))

/-- `DRAIN()` on the block (R194): the masks, and every `chg` flag cleared. -/
def drainBlock {n : Nat} (s : Block n) : Block n × (BitVec n × BitVec n) :=
  ({ s with enc := clearChg s.enc, btn := clearChg s.btn }, (chgMask s.enc, chgMask s.btn))

/-- `READ(K, IDX)` on the block (R196): an index at or above `N_CH` is a host fault; nothing is written. -/
def readBlock (p : Params) (k : Kind) (idx : Nat) (s : Block p.nCh) :
    Except Fault (Block p.nCh × (Nat × Nat × Bool)) :=
  if h : idx < p.nCh then
    let c := s.chan k ⟨idx, h⟩
    .ok (s, (c.cur.toNat, c.prev.toNat, c.chg))
  else .error .readIndexOutOfRange

/-- SNAP on the block, with its record (R190). -/
def snapOp (p : Params) (n : BitVec 4) (r : SnapData) (s : Block p.nCh) : BlockResult p.nCh :=
  record (fun x => .snap x.1 x.2.1 x.2.2) (snapBlock p n.toNat r s)

/-- DRAIN on the block, with its record (R194). -/
def drainOp {n : Nat} (s : Block n) : BlockResult n := record (fun x => .drain x.1 x.2) (.ok (drainBlock s))

/-- READ on the block, with its record (R196). -/
def readOp (p : Params) (k : Kind) (idx : BitVec 8) (s : Block p.nCh) : BlockResult p.nCh :=
  record (fun x => .read x.1 x.2.1 x.2.2) (readBlock p k (zextIdx idx) s)

/-- SNAP (R190), the reply taken from the port `snap_data`. -/
def execSnap (n : BitVec 4) (s : State) : Host.Outcome State Fault Refusal :=
  complete s (snapOp Config.isc n s.snapData s.block)

/-- DRAIN (R194). -/
def execDrain (s : State) : Host.Outcome State Fault Refusal := complete s (drainOp s.block)

/-- READ (R196). -/
def execRead (k : Kind) (idx : BitVec 8) (s : State) : Host.Outcome State Fault Refusal :=
  complete s (readOp Config.isc k idx s.block)

end Sys2Proof.Machine
end

