-- ==== Sys2Proof/Machine/Dispatch.lean ====
section
/-! DEFINITION. `exec`: one arm per constructor of `Instr`, each one call of that instruction's meaning. -/

namespace Sys2Proof.Machine

def exec (i : Instr) (s : State) : Host.Outcome State Fault Refusal :=
  match i with
  | .nop => Sys2Proof.Machine.execNop s
  | .rxb b => Sys2Proof.Machine.execRxb b s
  | .parse => Sys2Proof.Machine.execParse s
  | .poll b => Sys2Proof.Machine.execPoll b s
  | .pollNb => Sys2Proof.Machine.execPollNb s
  | .apply k idx imm => Sys2Proof.Machine.execApply k idx imm s
  | .diff k idx imm => Sys2Proof.Machine.execDiff k idx imm s
  | .snap n => Sys2Proof.Machine.execSnap n s
  | .drain => Sys2Proof.Machine.execDrain s
  | .read k idx => Sys2Proof.Machine.execRead k idx s
  | .rdstat => Sys2Proof.Machine.execRdstat s
  | .reservedAB low => Sys2Proof.Machine.execReservedAB low s
  | .reservedCF low => Sys2Proof.Machine.execReservedCF low s
  | .term => Sys2Proof.Machine.execTerm s
  | .noiseNul => Sys2Proof.Machine.execNoiseNul s
  | .noiseLf => Sys2Proof.Machine.execNoiseLf s
  | .noiseCr => Sys2Proof.Machine.execNoiseCr s
  | .ord b => Sys2Proof.Machine.execOrd b s
  | .encoderUpdate => Sys2Proof.Machine.execEncoderUpdate s
  | .buttonUpdate => Sys2Proof.Machine.execButtonUpdate s
  | .unknownKind b => Sys2Proof.Machine.execUnknownKind b s

end Sys2Proof.Machine
end

