-- ==== Sys2Proof/Machine/HostPort.lean ====
section
/-! DEFINITION. The host's side of the command port: what it puts there (30_encoding.md R82, R83), the pseudo-instructions
SEND, FEED and SENDMSG (R94), the assembler text of an operation (R93), and the host's liberty to drop its own queued
bytes after an overflow (92_eei_decisions.md OPEN-1). -/

namespace Sys2Proof.Machine

/-! ### Issuing -/

/-- One command on the port, with the reply bytes that stand beside it. -/
def PortInput.ofWord (w : CmdWord) (r : SnapData) : PortInput := { rst := false, cmd := some w, snapData := r }

/-- Reset asserted with no command (R270). -/
def PortInput.reset (r : SnapData) : PortInput := { rst := true, cmd := none, snapData := r }

/-- The host issues one more input: it is taken after those already there (R61). -/
def State.issue (x : PortInput) (s : State) : State := { s with inputs := s.inputs ++ [x] }

/-- The input that issues an operation of the command set; a serial or kind byte is no command by itself (R83). -/
def PortInput.ofInstr (r : SnapData) (i : Instr) : Option PortInput :=
  match encode i with
  | .cmd w => some (PortInput.ofWord w r)
  | .serial _ => none
  | .kind _ => none

/-! ### The host's liberty after an overflow -/

/-- Whether an input presents a serial byte to the receiver: RXB, or POLL with `V` = 1 (R125). -/
def PortInput.presentsByte (x : PortInput) : Bool :=
  match x.cmd with
  | none => false
  | some w =>
    match decodeCmd w with
    | .ok (.rxb _) => !x.rst
    | .ok (.poll _) => !x.rst
    | _ => false

/-- The queue without the first `k` inputs that present a serial byte. -/
def dropBytes : Nat → List PortInput → List PortInput
  | 0, q => q
  | _ + 1, [] => []
  | k + 1, x :: q => if x.presentsByte then dropBytes k q else x :: dropBytes (k + 1) q

/-- Whether the operation just done reported `overflow = 1`. -/
def overflowReported {n : Nat} : Resp n → Bool
  | .rxb r => r.overflow
  | .poll r _ => r.overflow
  | _ => false

/-- `TRANSPORT_FLUSH` (OPEN-1): after a command with `overflow = 1` the host may drop any number `k` of its own bytes not
yet presented. It is an act of the host between two steps; the block's step is the same either way. -/
def State.hostFlush (k : Nat) (s : State) : State :=
  if overflowReported s.resp then { s with inputs := dropBytes k s.inputs } else s

/-! ### Decimal text and the pseudo-instructions -/

/-- The decimal digits of `n` put before `acc`, least significant first taken; `fuel` above `n` is enough. -/
def decimalAux : (fuel n : Nat) → List Byte → List Byte
  | 0, _, acc => acc
  | fuel + 1, n, acc =>
    let acc1 := BitVec.ofNat 8 (0x30 + n % 10) :: acc
    if n / 10 = 0 then acc1 else decimalAux fuel (n / 10) acc1

/-- A number in decimal with no leading zeros (R94). -/
def decimalNat (n : Nat) : List Byte := decimalAux (n + 1) n []

/-- An integer in decimal, with a `'-'` only for negative values (R94). -/
def decimal (v : Int) : List Byte := if v < 0 then Ascii.minus :: decimalNat v.natAbs else decimalNat v.natAbs

/-- The kind byte of a frame (R74). -/
def Kind.letter : Kind → Byte
  | .encoder => Ascii.lowerE
  | .button => Ascii.lowerB

/-- The frame `<k><ch>:<val>;` (R72, R94). -/
def messageText (k : Kind) (ch v : Int) : List Byte :=
  Kind.letter k :: decimal ch ++ Ascii.colon :: decimal v ++ [Ascii.semi]

/-- `SEND "<s>"`: one POLL per byte (R94). -/
def send (bs : List Byte) : List Instr := bs.map .poll

/-- `FEED "<s>"`: one RXB per byte (R94). -/
def feed (bs : List Byte) : List Instr := bs.map .rxb

/-- `SENDMSG <k>, <ch>, <val>` (R94); the channel may be negative, as in `e-1:5;` (R165). -/
def sendMsg (k : Kind) (ch v : Int) : List Instr := send (messageText k ch v)

/-! ### Assembler text (R93) -/

/-- One hexadecimal digit. -/
def hexDigit (n : Nat) : Char := "0123456789ABCDEF".toList.getD n '0'

/-- `<byte>`: an escape for `'\n'`, `'\r'`, `'\0'`; `'c'` for a printable character; `0xHH` otherwise (log entry 16). -/
def asmByte (b : Byte) : List Char :=
  if b = Ascii.lf then ['\'', '\\', 'n', '\'']
  else if b = Ascii.cr then ['\'', '\\', 'r', '\'']
  else if b = Ascii.nul then ['\'', '\\', '0', '\'']
  else if 0x20 ≤ b.toNat ∧ b.toNat ≤ 0x7E ∧ b ≠ 0x27#8 ∧ b ≠ 0x5C#8 then ['\'', Char.ofNat b.toNat, '\'']
  else ['0', 'x', hexDigit (b.toNat / 16), hexDigit (b.toNat % 16)]

/-- `<k>`: `e` or `b`. -/
def asmKind : Kind → List Char
  | .encoder => ['e']
  | .button => ['b']

/-- A decimal operand. -/
def asmInt (v : Int) : List Char := (decimal v).map (fun b => Char.ofNat b.toNat)

/-- The reply bytes of SNAP, `[r0, …, r8]`, each as `0xHH`. -/
def asmReply (r : SnapData) : List Char :=
  '[' :: (", ".toList.intercalate ((List.range 9).map (fun j =>
    let b : Nat := (r.extractLsb' (8 * (8 - j)) 8).toNat
    ['0', 'x', hexDigit (b / 16), hexDigit (b % 16)]))) ++ [']']

/-- The line of R93 for an operation, with the reply bytes `r` for SNAP; `none` for what is no operation of the command
set (a reserved word, a serial byte, a kind byte). -/
def asm (r : SnapData) : Instr → Option (List Char)
  | .nop => some "NOP".toList
  | .rxb b => some ("RXB ".toList ++ asmByte b)
  | .parse => some "PARSE".toList
  | .poll b => some ("POLL ".toList ++ asmByte b)
  | .pollNb => some "POLL -".toList
  | .apply k idx imm =>
    some ("APPLY ".toList ++ asmKind k ++ ", ".toList ++ asmInt idx.toNat ++ ", ".toList ++ asmInt imm.toInt)
  | .diff k idx imm =>
    some ("DIFF ".toList ++ asmKind k ++ ", ".toList ++ asmInt idx.toNat ++ ", ".toList ++ asmInt imm.toInt)
  | .snap n => some ("SNAP ".toList ++ asmInt n.toNat ++ ", ".toList ++ asmReply r)
  | .drain => some "DRAIN".toList
  | .read k idx => some ("READ ".toList ++ asmKind k ++ ", ".toList ++ asmInt idx.toNat)
  | .rdstat => some "RDSTAT".toList
  | .reservedAB _ => none
  | .reservedCF _ => none
  | .term => none
  | .noiseNul => none
  | .noiseLf => none
  | .noiseCr => none
  | .ord _ => none
  | .encoderUpdate => none
  | .buttonUpdate => none
  | .unknownKind _ => none

end Sys2Proof.Machine
end

