-- ==== Sys2Proof/Machine/Fetch.lean ====
section
/-! DEFINITION. Taking one input from the ports (30_encoding.md R82, R83; 70_reset_and_hazards.md R270), running a command
word (R89 to R91), running several operations in order (20_memory.md R61), and placing a word where the next step takes
it. The block has no program counter and fetches nothing (10_state.md R21): the host's command is the instruction. -/

namespace Sys2Proof.Machine

/-- The oldest input and the state with it taken: its reply bytes stand on `snap_data`. -/
def takeInput (s : State) : Option (PortInput × State) :=
  match s.inputs with
  | [] => none
  | x :: rest => some (x, { s with inputs := rest, snapData := x.snapData })

/-- The host fault of a word that decodes to no operation (R91). -/
def hostFaultOf : DecodeError → Fault
  | .unusedField => .unusedField
  | .snapLengthOver9 => .snapLengthOver9

/-- A command word under the meanings `ex`: the operation it decodes to, or the host fault (R89 to R91). -/
def runCmdBy {σ : Type} (ex : Instr → σ → Host.Outcome σ Fault Refusal) (w : CmdWord) (s : σ) :
    Host.Outcome σ Fault Refusal :=
  match decodeCmd w with
  | .ok i => ex i s
  | .error e => .fault (hostFaultOf e)

/-- One input already taken (R270): `reset` is the state after the reset step; with no command nothing happens; a
command together with `rst` is refused (U13). -/
def runInputBy {σ : Type} (ex : Instr → σ → Host.Outcome σ Fault Refusal) (reset : σ) (x : PortInput) (s : σ) :
    Host.Outcome σ Fault Refusal :=
  if x.rst then
    match x.cmd with
    | none => .next reset
    | some _ => .refused .commandDuringReset
  else
    match x.cmd with
    | none => .next s
    | some w => runCmdBy ex w s

/-- A command word on this hardware. -/
def runCmd (w : CmdWord) (s : State) : Host.Outcome State Fault Refusal := runCmdBy exec w s

/-- Reset (R270, R271): the block takes its reset values, and no operation's record stands on `resp` (log entry 4). -/
def applyReset (s : State) : State := { s with block := s.block.resetStep, resp := .none }

/-- One input already taken, on this hardware. -/
def runInput (x : PortInput) (s : State) : Host.Outcome State Fault Refusal := runInputBy exec (applyReset s) x s

/-- Several operations, one after another, each seeing the state the earlier ones left (R61). -/
def execAll : List Instr → State → Host.Outcome State Fault Refusal
  | [], s => .next s
  | i :: is, s =>
    match exec i s with
    | .next s1 => execAll is s1
    | .fault e => .fault e
    | .refused e => .refused e

/-- An input put in front of those already there, with the reply bytes that stand on the port. -/
def State.pushCmd (w : CmdWord) (s : State) : State :=
  { s with inputs := PortInput.ofWord w s.snapData :: s.inputs }

/-- The block with the shortest well-formed frame of kind byte `b` held, `b` then `0:0;` and the NUL (R73, R133). -/
def stageFrame {n : Nat} (b : Byte) (s : Block n) : Block n :=
  { s with
    rxState := .idle
    rxLen := 0
    msgReady := true
    fb := (((((s.fb.write 0 b).write 1 Ascii.digit0).write 2 Ascii.colon).write 3 Ascii.digit0).write 4
      Ascii.semi).write 5 Ascii.nul }

/-- A table row's word placed where the next step takes it (log entry 9). A 32-bit word is a command. A serial byte
reaches the receiver through RXB (R125). A kind byte is byte 0 of a held frame, which PARSE dispatches on (R161). -/
def stageWord (s : State) (nbits w : Nat) : State :=
  if nbits = 8 then
    let b : Byte := BitVec.ofNat 8 w
    match kindOf b with
    | some _ => { s with block := stageFrame b s.block }.pushCmd (cmdWord 0x2#4 0 0 0 0)
    | none => s.pushCmd (cmdWord 0x1#4 0 0 0 (0#8 ++ b))
  else s.pushCmd (BitVec.ofNat 32 w)

end Sys2Proof.Machine
end

