-- ==== Sys2Proof/Machine/Step.lean ====
section
/-! DEFINITION. One step of the machine: the block takes the oldest input the host has put on its ports. -/

namespace Sys2Proof.Machine

/-- One step (00_scope.md R7, R8). With no input the block waits and nothing changes (R256, R272). -/
def step (s : State) : Host.Outcome State Fault Refusal :=
  match takeInput s with
  | none => .next s
  | some (x, s1) => runInput x s1

/-- `s` with the instruction of a table row placed so that the next step runs it. -/
def State.withFetchWord (s : State) (nbits w : Nat) : State := stageWord s nbits w

end Sys2Proof.Machine
end

