-- ==== Sys2Proof/Machine/AnyParams.lean ====
section
/-! DEFINITION. The machine for any parameters (00_scope.md R5: "A model takes `N_CH` and `SNAP_ENC_SIGNED` as
arguments"): the operations on the block are those that `exec` calls, and only the state around the block is named again
here, with `N_CH` channels in each bank. -/

namespace Sys2Proof.Machine

variable {p : Params}

/-- The state of a machine with the parameters `p`: the fields of `State`. -/
structure StateOf (p : Params) where
  block : Block p.nCh
  snapData : SnapData
  inputs : List PortInput
  resp : Resp p.nCh
deriving DecidableEq, Repr

/-- A machine right after reset (R271, R272). -/
def StateOf.reset (p : Params) : StateOf p where
  block := Block.zero p.nCh
  snapData := 0
  inputs := []
  resp := .none

/-- This hardware's state as the state of a machine with its parameters. -/
def State.toStateOf (s : State) : StateOf Config.isc :=
  { block := s.block, snapData := s.snapData, inputs := s.inputs, resp := s.resp }

/-- What an instruction does to the block (R89, R90, R71, R74), the reply taken from `r`. -/
def blockOp (p : Params) (i : Instr) (r : SnapData) (s : Block p.nCh) : BlockResult p.nCh :=
  match i with
  | .nop => nopOp s
  | .rxb b => rxbOp b s
  | .parse => parseOp p s
  | .poll b => pollOp p b s
  | .pollNb => pollNbOp p s
  | .apply k idx imm => applyOp p k idx imm s
  | .diff k idx imm => diffOp p k idx imm s
  | .snap n => snapOp p n r s
  | .drain => drainOp s
  | .read k idx => readOp p k idx s
  | .rdstat => rdstatOp s
  | .reservedAB low => reservedABOp low s
  | .reservedCF low => reservedCFOp low s
  | .term => termOp s
  | .noiseNul => noiseNulOp s
  | .noiseLf => noiseLfOp s
  | .noiseCr => noiseCrOp s
  | .ord b => ordOp b s
  | .encoderUpdate => encoderUpdateOp p s
  | .buttonUpdate => buttonUpdateOp p s
  | .unknownKind b => unknownKindOp p b s

/-- The meaning of an instruction on a machine with the parameters `p`. -/
def execFor (p : Params) (i : Instr) (s : StateOf p) : Host.Outcome (StateOf p) Fault Refusal :=
  completeBy (fun b o => { s with block := b, resp := o }) (blockOp p i s.snapData s.block)

/-- One step of a machine with the parameters `p` (R7, R8): it takes its oldest input, or waits. -/
def stepFor (p : Params) (s : StateOf p) : Host.Outcome (StateOf p) Fault Refusal :=
  match s.inputs with
  | [] => .next s
  | x :: rest =>
    let s1 := { s with inputs := rest, snapData := x.snapData }
    runInputBy (execFor p) { s1 with block := s1.block.resetStep, resp := .none } x s1

/-- The machine with the parameters `p`; this hardware is the one with `Config.isc`. -/
def machineFor (p : Params) : Host.Core :=
  { State := StateOf p, Fault := Fault, Refusal := Refusal, step := stepFor p, reset := StateOf.reset p }

end Sys2Proof.Machine
end

