-- ==== Sys2Proof/Machine/Run.lean ====
section
/-! DEFINITION. A run (70_reset_and_hazards.md R285): a finite sequence of commands issued from the reset state, whose
result is the state it ends in and the outputs of every command. -/

namespace Sys2Proof.Machine

/-- What a run gives: the outputs of its commands, the first one first, and how it ended. A run ends early at a host
fault or a refusal, after which no state is defined (R8). -/
structure RunResult (σ ρ : Type) where
  outputs : List ρ
  ending : Host.Outcome σ Fault Refusal
deriving Repr

/-- `k` steps of `st`, with the outputs `out` gives for each of them. -/
def runSteps {σ ρ : Type} (st : σ → Host.Outcome σ Fault Refusal) (out : σ → σ → List ρ) : Nat → σ → RunResult σ ρ
  | 0, s => { outputs := [], ending := .next s }
  | k + 1, s =>
    match st s with
    | .next t =>
      let r := runSteps st out k t
      { outputs := out s t ++ r.outputs, ending := r.ending }
    | .fault f => { outputs := [], ending := .fault f }
    | .refused q => { outputs := [], ending := .refused q }

/-- The outputs of a step that found these inputs and left this record: the record if the oldest input was a command,
none if it was a reset, carried no command, or there was none. -/
def outputsOf {ρ : Type} (inputs : List PortInput) (resp : ρ) : List ρ :=
  match inputs with
  | [] => []
  | x :: _ => if x.cmd.isSome then [resp] else []

/-- The run of a sequence of inputs from reset (R285): the host issues these and no further one. -/
def run (xs : List PortInput) : RunResult State (Resp Config.isc.nCh) :=
  runSteps step (fun s t => outputsOf s.inputs t.resp) xs.length { State.reset with inputs := xs }

/-- A run of a machine with the parameters `p`. -/
def runFor (p : Params) (xs : List PortInput) : RunResult (StateOf p) (Resp p.nCh) :=
  runSteps (stepFor p) (fun s t => outputsOf s.inputs t.resp) xs.length { StateOf.reset p with inputs := xs }

end Sys2Proof.Machine
end

