-- ==== Sys2Proof/Safety.lean ====
section
/-! DEFINITION. The terms the claims are stated in: the invariants of 10_state.md R27 and R39, the held frame (R28), the
frame grammar of 30_encoding.md R72, what one differ update leaves in a channel (40_bus_differ.md R101), and which parts
of two blocks are the same. -/

namespace Sys2Proof.Machine

/-! ### The invariant -/

/-- The invariant of the block. I-4 and I-5 (R39) hold by the widths of `enc` and `btn`. -/
structure Block.Inv {n : Nat} (s : Block n) : Prop where
  /-- I-1 (R27): `RX.state = Idle` implies `RX.len = 0`. -/
  idleEmpty : s.rxState = .idle → s.rxLen = 0
  /-- I-2 (R27): `RX.state = Receiving` implies `1 ≤ RX.len`, `RX.msg_ready = 0` and every byte of `FB[0..RX.len-1]` is
  ordinary; `RX.len ≤ 31` holds by its width. -/
  receiving : s.rxState = .receiving →
    1 ≤ s.rxLen.toNat ∧ s.msgReady = false ∧ ∀ j < s.rxLen.toNat, classify (s.fb.read j) = .ord
  /-- I-3 (R27): `RX.msg_ready = 1` implies `Idle`, `RX.len = 0` and a whole frame at `FB[0..k+1]`, `1 ≤ k ≤ 30`. -/
  held : s.msgReady = true → s.rxState = .idle ∧ s.rxLen = 0 ∧
    ∃ k ≤ 30, 1 ≤ k ∧ (∀ j < k, classify (s.fb.read j) = .ord) ∧ s.fb.read k = Ascii.semi ∧
      s.fb.read (k + 1) = Ascii.nul
  /-- `ERR.last` is never 6 or 7 (R36, R240). -/
  errCode : s.errLast.toNat ≤ 5
  /-- The frame buffer's list is in canonical form, every index in 0..31 (R51). -/
  fbWf : s.fb.wf = true

/-- The invariant of the machine: its block's. -/
abbrev State.Inv (s : State) : Prop := s.block.Inv

/-! ### Frames -/

/-- `f` is `FB[0..k]`, `k` the least index with `FB[k] = ';'` (R28, R160). -/
def HeldFrame {n : Nat} (s : Block n) (f : List Byte) : Prop :=
  ∃ k < 32, f = (List.range (k + 1)).map s.fb.read ∧ s.fb.read k = Ascii.semi ∧ ∀ j < k, s.fb.read j ≠ Ascii.semi

/-- `1*DIGIT` (R72): one or more bytes 0x30..0x39. -/
def IsDigits (ds : List Byte) : Prop := ds ≠ [] ∧ ∀ d ∈ ds, 0x30 ≤ d.toNat ∧ d.toNat ≤ 0x39

/-- `decval` as R77 writes it: `Σ_{j=0..m} (d_j - 0x30) · 10^(m-j)` for the digits `d_0 … d_m`. -/
def digitSum (ds : List Byte) : Nat :=
  ((List.range ds.length).map (fun j => ((ds.getD j 0).toNat - 0x30) * 10 ^ (ds.length - 1 - j))).sum

/-- `INT = ["-"] 1*DIGIT` with its value (R72, R77). -/
inductive IsInt : List Byte → Int → Prop where
  | plain (ds : List Byte) : IsDigits ds → IsInt ds (digitSum ds)
  | minus (ds : List Byte) : IsDigits ds → IsInt (Ascii.minus :: ds) (-(digitSum ds : Int))

/-- A body that matches `INT ":" INT`, with the values of its two fields (R72, R75). -/
def IsBody (body : List Byte) (ch v : Int) : Prop :=
  ∃ s1 s2, body = s1 ++ Ascii.colon :: s2 ∧ IsInt s1 ch ∧ IsInt s2 v

/-! ### Channels -/

/-- What a differ update with the value `u` leaves in a channel (R101). -/
def Chan.updated {w : Nat} (c : Chan w) (u : BitVec w) : Chan w :=
  if u = c.cur then c else { cur := u, prev := c.cur, chg := true }

/-! ### What two blocks share -/

/-- The receiver's registers are the same. -/
def SameReceiver {n : Nat} (s t : Block n) : Prop :=
  t.rxState = s.rxState ∧ t.rxLen = s.rxLen ∧ t.msgReady = s.msgReady

/-- Every frame buffer cell reads the same. -/
def SameFb {n : Nat} (s t : Block n) : Prop := ∀ a, t.fb.read a = s.fb.read a

/-- Every channel of both banks is the same. -/
def SameTable {n : Nat} (s t : Block n) : Prop := ∀ k i, t.chan k i = s.chan k i

/-- Every channel but `(k, i)` is the same. -/
def SameTableBut {n : Nat} (k : Kind) (i : Fin n) (s t : Block n) : Prop :=
  ∀ k' j, ¬(k' = k ∧ j = i) → t.chan k' j = s.chan k' j

/-- The five error counters and `ERR.last` are the same. -/
def SameErrors {n : Nat} (s t : Block n) : Prop :=
  t.cntOvf = s.cntOvf ∧ t.cntUnk = s.cntUnk ∧ t.cntMal = s.cntMal ∧ t.cntRng = s.cntRng ∧ t.cntBus = s.cntBus ∧
    t.errLast = s.errLast

/-- The counters and `ERR.last` of `t` are those of `s` after the one error `e` (R241). -/
def ErrorRecorded {n : Nat} (e : ErrorKind) (s t : Block n) : Prop :=
  t.errLast = e.code ∧
  t.cntOvf = (if e = .transportOverflow then s.cntOvf + 1 else s.cntOvf) ∧
  t.cntUnk = (if e = .parseErrorUnknownKind then s.cntUnk + 1 else s.cntUnk) ∧
  t.cntMal = (if e = .parseErrorMalformed then s.cntMal + 1 else s.cntMal) ∧
  t.cntRng = (if e = .channelOutOfRange then s.cntRng + 1 else s.cntRng) ∧
  t.cntBus = (if e = .busTransactionFailure then s.cntBus + 1 else s.cntBus)

/-- The errors an instruction may record (R240, R244): the receiver's one, the parser's three, SNAP's one. -/
def errorsOf : Instr → List ErrorKind
  | .rxb _ => [.transportOverflow]
  | .term => [.transportOverflow]
  | .noiseNul => [.transportOverflow]
  | .noiseLf => [.transportOverflow]
  | .noiseCr => [.transportOverflow]
  | .ord _ => [.transportOverflow]
  | .parse => [.parseErrorUnknownKind, .parseErrorMalformed, .channelOutOfRange]
  | .pollNb => [.parseErrorUnknownKind, .parseErrorMalformed, .channelOutOfRange]
  | .encoderUpdate => [.parseErrorMalformed, .channelOutOfRange]
  | .buttonUpdate => [.parseErrorMalformed, .channelOutOfRange]
  | .unknownKind _ => [.parseErrorUnknownKind]
  | .poll _ => [.transportOverflow, .parseErrorUnknownKind, .parseErrorMalformed, .channelOutOfRange]
  | .apply _ _ _ => [.channelOutOfRange]
  | .snap _ => [.busTransactionFailure]
  | .nop => []
  | .diff _ _ _ => []
  | .drain => []
  | .read _ _ => []
  | .rdstat => []
  | .reservedAB _ => []
  | .reservedCF _ => []

/-- The operands of a decoded command are the fields of its word at the bit positions of R88. -/
def OperandsAreFields (w : CmdWord) : Instr → Prop
  | .rxb b => b = w.extractLsb' 0 8
  | .poll b => b = w.extractLsb' 0 8
  | .apply k idx imm => k.bit = w.extractLsb' 27 1 ∧ idx = w.extractLsb' 16 8 ∧ imm = w.extractLsb' 0 16
  | .diff k idx imm => k.bit = w.extractLsb' 27 1 ∧ idx = w.extractLsb' 16 8 ∧ imm = w.extractLsb' 0 16
  | .read k idx => k.bit = w.extractLsb' 27 1 ∧ idx = w.extractLsb' 16 8
  | .snap n => n = w.extractLsb' 0 4 ∧ n.toNat ≤ 9
  | _ => True

/-- The input ports are untouched by an operation. -/
def SamePorts (s t : State) : Prop := t.snapData = s.snapData ∧ t.inputs = s.inputs

/-- The value of channel `(k, i)` after updates with the values `vs`, if it was `c` before (R106). -/
def curAfter {w : Nat} (c : BitVec w) (vs : List (BitVec w)) : BitVec w := vs.getLastD c

/-- The strict order of the drain sequence (R195): encoders before buttons, ascending indices within a kind. -/
def DrainBefore (x y : Kind × Nat) : Prop := (x.1 = .encoder ∧ y.1 = .button) ∨ (x.1 = y.1 ∧ x.2 < y.2)

end Sys2Proof.Machine
end

