-- ==== Sys2Proof/Certificates/Slice0/Obligations.lean ====
section
/-! DEFINITION. The statements about this hardware, each from the numbered rules of spec/. -/

open Sys2Proof Sys2Proof.Machine

/-! ### The Frame Receiver -/

/-- R128: while a frame waits, a byte is not taken, by RXB or by any of the serial byte rows (TERM, NOISE_NUL, NOISE_LF,
NOISE_CR, ORD: `decodeSerial b` is the row of `b`), and no state changes but the outputs. -/
def Obligations.ByteHeldWhileFrameWaits : Prop :=
  ∀ (b : Byte) (s : State), s.block.msgReady = true → ∀ i ∈ [Instr.rxb b, decodeSerial b],
    exec i s = .next { s with resp := .rxb ⟨false, false, false⟩ }

/-- R129: a byte of any class that arrives while `RX.len > 30` overflows. -/
def Obligations.ByteOverflowsFullFrame : Prop :=
  ∀ (b : Byte) (s : State), s.block.msgReady = false → s.block.rxLen.toNat > 30 → ∀ i ∈ [Instr.rxb b, decodeSerial b],
    exec i s = .next { s with
      block := { s.block with rxLen := 0, rxState := .idle, errLast := 1, cntOvf := s.block.cntOvf + 1 }
      resp := .rxb ⟨true, false, true⟩ }

/-- R130: in `Idle` the terminator and the noise bytes are taken and ignored. -/
def Obligations.IdleIgnoresTerminatorAndNoise : Prop :=
  ∀ (b : Byte) (s : State), s.block.rxState = .idle → s.block.msgReady = false → s.block.rxLen.toNat ≤ 30 →
    b ∈ [0x3B#8, 0x0A#8, 0x0D#8, 0x00#8] → ∀ i ∈ [Instr.rxb b, decodeSerial b],
    exec i s = .next { s with resp := .rxb ⟨true, false, false⟩ }

/-- R131: in `Idle` an ordinary byte is stored at index 0 and starts a frame; no other cell and nothing else changes. -/
def Obligations.IdleStoresFirstByte : Prop :=
  ∀ (b : Byte) (s : State), s.block.fb.wf = true → s.block.rxState = .idle → s.block.msgReady = false →
    s.block.rxLen.toNat ≤ 30 → b ∉ [0x3B#8, 0x0A#8, 0x0D#8, 0x00#8] → ∀ i ∈ [Instr.rxb b, decodeSerial b],
    ∃ t, exec i s = .next t ∧ t.block.fb.read 0 = b ∧ (∀ a, a ≠ 0 → t.block.fb.read a = s.block.fb.read a) ∧
      t = { s with
        block := { s.block with fb := t.block.fb, rxLen := 1, rxState := .receiving }
        resp := .rxb ⟨true, false, false⟩ }

/-- R132: in `Receiving` an ordinary byte is appended at `RX.len`. -/
def Obligations.ReceivingAppendsByte : Prop :=
  ∀ (b : Byte) (s : State), s.block.fb.wf = true → s.block.rxState = .receiving → s.block.msgReady = false →
    s.block.rxLen.toNat ≤ 30 → b ∉ [0x3B#8, 0x0A#8, 0x0D#8, 0x00#8] → ∀ i ∈ [Instr.rxb b, decodeSerial b],
    ∃ t, exec i s = .next t ∧ t.block.fb.read s.block.rxLen.toNat = b ∧
      (∀ a, a ≠ s.block.rxLen.toNat → t.block.fb.read a = s.block.fb.read a) ∧
      t.block.rxLen.toNat = s.block.rxLen.toNat + 1 ∧
      t = { s with
        block := { s.block with fb := t.block.fb, rxLen := t.block.rxLen }
        resp := .rxb ⟨true, false, false⟩ }

/-- R133: in `Receiving` the terminator completes the frame: `';'` at `RX.len`, NUL after it, message ready. -/
def Obligations.TerminatorCompletesFrame : Prop :=
  ∀ s : State, s.block.fb.wf = true → s.block.rxState = .receiving → s.block.msgReady = false →
    s.block.rxLen.toNat ≤ 30 → ∀ i ∈ [Instr.rxb 0x3B#8, Instr.term],
    ∃ t, exec i s = .next t ∧ t.block.fb.read s.block.rxLen.toNat = 0x3B#8 ∧
      t.block.fb.read (s.block.rxLen.toNat + 1) = 0x00#8 ∧
      (∀ a, a ≠ s.block.rxLen.toNat → a ≠ s.block.rxLen.toNat + 1 → t.block.fb.read a = s.block.fb.read a) ∧
      t = { s with
        block := { s.block with fb := t.block.fb, msgReady := true, rxLen := 0, rxState := .idle }
        resp := .rxb ⟨true, true, false⟩ }

/-- R135: in `Receiving` a noise byte is taken and ignored. -/
def Obligations.ReceivingIgnoresNoise : Prop :=
  ∀ (b : Byte) (s : State), s.block.rxState = .receiving → s.block.msgReady = false → s.block.rxLen.toNat ≤ 30 →
    b ∈ [0x0A#8, 0x0D#8, 0x00#8] → ∀ i ∈ [Instr.rxb b, decodeSerial b],
    exec i s = .next { s with resp := .rxb ⟨true, false, false⟩ }

/-- R51, R281: presenting a byte completes in every state, reachable or not: no frame buffer write falls outside
`FB[0..31]`. RXB and the serial byte rows write no channel and no port, and record no error but an overflow. That a
canonical frame buffer list stays canonical is about the model's own form of the buffer (DESIGN CHOICE, log entry 2). -/
def Obligations.ReceiverCompletesInEveryState : Prop :=
  ∀ (b : Byte) (s : State), ∀ i ∈ [Instr.rxb b, decodeSerial b],
    ∃ t r, exec i s = .next t ∧ t.resp = .rxb r ∧ SameTable s.block t.block ∧ SamePorts s t ∧
      (s.block.fb.wf = true → t.block.fb.wf = true) ∧
      (r.overflow = false → SameErrors s.block t.block) ∧
      (r.overflow = true → ErrorRecorded .transportOverflow s.block t.block)

/-! ### The Message Parser -/

/-- R167: with no frame held PARSE returns `NONE` and changes nothing; `POLL -` is PARSE alone (R170). -/
def Obligations.ParseWithNothingHeld : Prop :=
  ∀ s : State, s.block.msgReady = false →
    exec .parse s = .next { s with resp := .parse ⟨.none, .encoder, 0, 0, false⟩ } ∧
    exec .pollNb s = .next { s with resp := .poll ⟨false, false, false⟩ ⟨.none, .encoder, 0, 0, false⟩ }

/-- R161: a held frame whose byte 0 is neither `'e'` nor `'b'` is consumed as an unknown kind, by PARSE and by the
UnknownKind row. -/
def Obligations.ParseDropsUnknownKind : Prop :=
  ∀ (s : State) (kb : Byte) (rest : List Byte), s.block.msgReady = true → HeldFrame s.block (kb :: rest) →
    kb ∉ [0x65#8, 0x62#8] → ∀ i ∈ [Instr.parse, Instr.unknownKind kb],
    exec i s = .next { s with
      block := { s.block with msgReady := false, errLast := 2, cntUnk := s.block.cntUnk + 1 }
      resp := .parse ⟨.unknown, .encoder, 0, 0, false⟩ }

/-- R163: a held frame of a known kind whose body does not match `INT ":" INT` is dropped as malformed, by PARSE and by
the EncoderUpdate and ButtonUpdate rows (`decodeKind kb` is the row of `kb`). -/
def Obligations.ParseDropsMalformedBody : Prop :=
  ∀ (s : State) (kb : Byte) (body : List Byte), s.block.msgReady = true →
    HeldFrame s.block (kb :: body ++ [0x3B#8]) → kb ∈ [0x65#8, 0x62#8] → (¬∃ ch v, IsBody body ch v) →
    ∀ i ∈ [Instr.parse, decodeKind kb],
    exec i s = .next { s with
      block := { s.block with msgReady := false, errLast := 3, cntMal := s.block.cntMal + 1 }
      resp := .parse ⟨.malformed, .encoder, 0, 0, false⟩ }

/-- R165: a well-formed frame whose channel is below 0 or not below `N_CH` is dropped; the table is unchanged. -/
def Obligations.ParseDropsChannelOutOfRange : Prop :=
  ∀ (s : State) (kb : Byte) (body : List Byte) (ch v : Int), s.block.msgReady = true →
    HeldFrame s.block (kb :: body ++ [0x3B#8]) → kb ∈ [0x65#8, 0x62#8] → IsBody body ch v →
    (ch < 0 ∨ (Config.isc.nCh : Int) ≤ ch) → ∀ i ∈ [Instr.parse, decodeKind kb],
    exec i s = .next { s with
      block := { s.block with msgReady := false, errLast := 4, cntRng := s.block.cntRng + 1 }
      resp := .parse ⟨.range, .encoder, 0, 0, false⟩ }

/-- R166: a well-formed frame `e<ch>:<v>;` or `b<ch>:<v>;` with its channel in range is applied: the normalised value
goes through the differ, and nothing else but `RX.msg_ready` changes. -/
def Obligations.ParseAppliesMessage : Prop :=
  ∀ (s : State) (k : Kind) (body : List Byte) (c : Fin Config.isc.nCh) (v : Int), s.block.msgReady = true →
    HeldFrame s.block ((match k with | .encoder => 0x65#8 | .button => 0x62#8) :: body ++ [0x3B#8]) →
    IsBody body (c.val : Int) v →
    ∀ i ∈ [Instr.parse, (match k with | .encoder => Instr.encoderUpdate | .button => Instr.buttonUpdate)],
    ∃ t, exec i s = .next t ∧ t.block.chan k c = (s.block.chan k c).updated (norm k v) ∧
      SameTableBut k c s.block t.block ∧ SameErrors s.block t.block ∧ SameFb s.block t.block ∧ SamePorts s t ∧
      t.block.rxState = s.block.rxState ∧ t.block.rxLen = s.block.rxLen ∧ t.block.msgReady = false ∧
      t.resp = .parse ⟨.applied, k, c.val, (norm k v).toNat, decide (norm k v ≠ (s.block.chan k c).cur)⟩

/-- R27, R28, R170: under the invariant the parser completes, whatever is held: PARSE, both forms of POLL and the three
kind rows. None of them leaves a frame held, and those that take no byte leave the receiver's state and the buffer. What
a kind row does with no frame held, or with a frame of another kind byte, is the model's choice (DESIGN CHOICE, log entry
17): the spec gives the row its meaning for a held frame whose byte 0 is its own. -/
def Obligations.ParserCompletesUnderInvariant : Prop :=
  ∀ (b : Byte) (s : State), s.Inv →
    (∀ i ∈ [Instr.parse, Instr.pollNb, Instr.encoderUpdate, Instr.buttonUpdate, Instr.unknownKind b],
      ∃ t, exec i s = .next t ∧ t.block.msgReady = false ∧ t.block.rxState = s.block.rxState ∧
        t.block.rxLen = s.block.rxLen ∧ SameFb s.block t.block ∧ SamePorts s t) ∧
    ∃ t, exec (.poll b) s = .next t ∧ t.block.msgReady = false ∧ SamePorts s t

/-- R161, R162: PARSE of a held frame is the kind row of its byte 0, in every state. -/
def Obligations.KindRowIsParse : Prop :=
  ∀ s : State, s.block.msgReady = true → exec .parse s = exec (decodeKind (s.block.fb.read 0)) s

/-- R170: under the invariant POLL with a byte completes as RXB and then PARSE in one step, with the outputs of both and
no frame left held; `POLL -` completes as PARSE alone, with the receiver's outputs 0. -/
def Obligations.PollIsReceiveThenParse : Prop :=
  ∀ (b : Byte) (s : State), s.Inv →
    (∃ t u r p, exec (.rxb b) s = .next t ∧ t.resp = .rxb r ∧ exec .parse t = .next u ∧ u.resp = .parse p ∧
      u.block.msgReady = false ∧ exec (.poll b) s = .next { u with resp := .poll r p }) ∧
    (∃ u p, exec .parse s = .next u ∧ u.resp = .parse p ∧ u.block.msgReady = false ∧
      exec .pollNb s = .next { u with resp := .poll ⟨false, false, false⟩ p })

/-- R72, R75, R76: the body decoder accepts exactly the bodies that match `INT ":" INT`, with the values of R77. -/
def Obligations.BodyGrammarDecided : Prop :=
  ∀ (body : List Byte) (ch v : Int), decodeBody body = some (ch, v) ↔ IsBody body ch v

/-- R77: the decoder's decimal value is the sum of the digits times powers of ten, with no width. -/
def Obligations.DecimalValueIsDigitSum : Prop :=
  ∀ ds : List Byte, decval ds = digitSum ds

/-- R100: an encoder value is clamped to [0, 127], a button value is 0 or 1. -/
def Obligations.NormalisedValues : Prop :=
  ∀ v : Int,
    (v < 0 → (norm .encoder v).toNat = 0) ∧ (127 < v → (norm .encoder v).toNat = 127) ∧
    (0 ≤ v → v ≤ 127 → ((norm .encoder v).toNat : Int) = v) ∧
    (v = 0 → (norm .button v).toNat = 0) ∧ (v ≠ 0 → (norm .button v).toNat = 1)

/-- R168, R166: APPLY with its index in range. -/
def Obligations.ApplyInRange : Prop :=
  ∀ (k : Kind) (idx : BitVec 8) (imm : BitVec 16) (s : State) (h : idx.toNat < Config.isc.nCh),
    ∃ t, exec (.apply k idx imm) s = .next t ∧
      t.block.chan k ⟨idx.toNat, h⟩ = (s.block.chan k ⟨idx.toNat, h⟩).updated (norm k imm.toInt) ∧
      SameTableBut k ⟨idx.toNat, h⟩ s.block t.block ∧ SameErrors s.block t.block ∧ SameFb s.block t.block ∧
      SameReceiver s.block t.block ∧ SamePorts s t ∧
      t.resp = .parse ⟨.applied, k, idx.toNat, (norm k imm.toInt).toNat,
        decide (norm k imm.toInt ≠ (s.block.chan k ⟨idx.toNat, h⟩).cur)⟩

/-- R168, R165: APPLY with its index at or above `N_CH` is a drop that is recorded. -/
def Obligations.ApplyOutOfRange : Prop :=
  ∀ (k : Kind) (idx : BitVec 8) (imm : BitVec 16) (s : State), Config.isc.nCh ≤ idx.toNat →
    exec (.apply k idx imm) s = .next { s with
      block := { s.block with errLast := 4, cntRng := s.block.cntRng + 1 }
      resp := .parse ⟨.range, .encoder, 0, 0, false⟩ }

/-! ### The Bus Differ -/

/-- R105: DIFF stores the normalised value through the differ and returns it; an index at or above `N_CH` is a host
fault. -/
def Obligations.DiffStoresOrFaults : Prop :=
  ∀ (k : Kind) (idx : BitVec 8) (imm : BitVec 16) (s : State),
    (∀ h : idx.toNat < Config.isc.nCh,
      ∃ t, exec (.diff k idx imm) s = .next t ∧
        t.block.chan k ⟨idx.toNat, h⟩ = (s.block.chan k ⟨idx.toNat, h⟩).updated (norm k imm.toInt) ∧
        SameTableBut k ⟨idx.toNat, h⟩ s.block t.block ∧ SameErrors s.block t.block ∧ SameFb s.block t.block ∧
        SameReceiver s.block t.block ∧ SamePorts s t ∧
        t.resp = .diff (norm k imm.toInt).toNat (decide (norm k imm.toInt ≠ (s.block.chan k ⟨idx.toNat, h⟩).cur))) ∧
    (Config.isc.nCh ≤ idx.toNat → exec (.diff k idx imm) s = .fault .diffIndexOutOfRange)

/-- R104: updates of different channels commute, for any number of channels. -/
def Obligations.DifferUpdatesCommute : Prop :=
  ∀ (n : Nat) (s : Block n) (k k' : Kind) (i j : Fin n) (u : BitVec k.width) (u' : BitVec k'.width),
    ¬(k' = k ∧ j = i) →
    (differUpdate k' j u' (differUpdate k i u s).1).1 = (differUpdate k i u (differUpdate k' j u' s).1).1 ∧
    (differUpdate k' j u' (differUpdate k i u s).1).2 = (differUpdate k' j u' s).2

/-- R106: updates of one channel, by DIFF or APPLY in any mixture, leave its last normalised value; `chg` is set when at
least one of them changed `cur`, and otherwise stays as it was; `prev` is the value before the last change. -/
def Obligations.UpdatesCoalesce : Prop :=
  ∀ (k : Kind) (idx : BitVec 8) (h : idx.toNat < Config.isc.nCh) (us : List (Bool × BitVec 16)) (s : State),
    ∃ t, execAll (us.map (fun x => if x.1 then Instr.diff k idx x.2 else Instr.apply k idx x.2)) s = .next t ∧
      let c := s.block.chan k ⟨idx.toNat, h⟩
      let d := t.block.chan k ⟨idx.toNat, h⟩
      let vs := us.map (fun x => norm k x.2.toInt)
      d.cur = curAfter c.cur vs ∧
      (d.chg = true ↔ c.chg = true ∨ ∃ v ∈ vs, v ≠ c.cur) ∧
      ((∀ v ∈ vs, v = c.cur) → d = c) ∧
      (∀ pre v post, vs = pre ++ v :: post → v ≠ curAfter c.cur pre → (∀ x ∈ post, x = v) →
        d.prev = curAfter c.cur pre)

/-! ### The Input Event Sink -/

/-- R190, R79, R80: SNAP of a complete reply updates the four encoders from the big-endian two's-complement words
`r[2i]·256 + r[2i+1]` and the four buttons from bits `7 - i` of `r[8]` (`r[j]` is bits 71-8j:64-8j of the port), and its
masks say which channels changed. -/
def Obligations.SnapAppliesWholeReply : Prop :=
  ∀ s : State, ∃ t ec bc, exec (.snap 9#4) s = .next t ∧ t.resp = .snap true ec bc ∧
    SameReceiver s.block t.block ∧ SameFb s.block t.block ∧ SameErrors s.block t.block ∧ SamePorts s t ∧
    ∀ i : Fin Config.isc.nCh,
      let w : BitVec 16 := BitVec.ofNat 16 ((s.snapData.extractLsb' (64 - 8 * (2 * i.val)) 8).toNat * 256 +
        (s.snapData.extractLsb' (64 - 8 * (2 * i.val + 1)) 8).toNat)
      let e := norm .encoder w.toInt
      let p := norm .button (if s.snapData.getLsbD (7 - i.val) then 1 else 0)
      t.block.chan .encoder i = (s.block.chan .encoder i).updated e ∧
      ec.getLsbD i.val = decide (e ≠ (s.block.chan .encoder i).cur) ∧
      t.block.chan .button i = (s.block.chan .button i).updated p ∧
      bc.getLsbD i.val = decide (p ≠ (s.block.chan .button i).cur)

/-- R190, R79, R80, for every `N_CH` and either value of `SNAP_ENC_SIGNED` (R5): the encoder word `r[2i]·256 + r[2i+1]` is
read as two's complement or as unsigned by the parameter; channels that do not exist are skipped, channels at or above 4
are never touched, and mask bits of channels that do not exist are 0. -/
def Obligations.SnapForAnyParameters : Prop :=
  ∀ (p : Params) (r : SnapData) (s : Block p.nCh), ∃ t ec bc, snapBlock p 9 r s = .ok (t, (true, ec, bc)) ∧
    (∀ i : Fin p.nCh, i.val < 4 →
      let w : BitVec 16 := BitVec.ofNat 16 ((r.extractLsb' (64 - 8 * (2 * i.val)) 8).toNat * 256 +
        (r.extractLsb' (64 - 8 * (2 * i.val + 1)) 8).toNat)
      let e := norm .encoder (if p.snapEncSigned then w.toInt else (w.toNat : Int))
      let b := norm .button (if r.getLsbD (7 - i.val) then 1 else 0)
      t.chan .encoder i = (s.chan .encoder i).updated e ∧
      ec.getLsbD i.val = decide (e ≠ (s.chan .encoder i).cur) ∧
      t.chan .button i = (s.chan .button i).updated b ∧
      bc.getLsbD i.val = decide (b ≠ (s.chan .button i).cur)) ∧
    (∀ i : Fin p.nCh, 4 ≤ i.val → ∀ k, t.chan k i = s.chan k i) ∧
    (∀ j, p.nCh ≤ j → ec.getLsbD j = false ∧ bc.getLsbD j = false)

/-- R191: an incomplete reply is recorded and not read, whatever stands on `snap_data`. -/
def Obligations.SnapShortReplyRecorded : Prop :=
  ∀ (n : BitVec 4) (s : State), n.toNat < 9 →
    exec (.snap n) s = .next { s with
      block := { s.block with errLast := 5, cntBus := s.block.cntBus + 1 }
      resp := .snap false 0 0 }

/-- R190, R81: `n` above 9 is a host fault, of the operation and of the word. -/
def Obligations.SnapOverlongFaults : Prop :=
  ∀ (n : BitVec 4) (s : State), 9 < n.toNat →
    exec (.snap n) s = .fault .snapLengthOver9 ∧
    runCmd (BitVec.ofNat 32 (0x60000000 + n.toNat)) s = .fault .snapLengthOver9

/-- R194: DRAIN returns every changed flag in its masks and clears it; `cur`, `prev` and the rest stay. -/
def Obligations.DrainReadsAndClears : Prop :=
  ∀ s : State, ∃ t em bm, exec .drain s = .next t ∧ t.resp = .drain em bm ∧
    (∀ i : Fin Config.isc.nCh, em.getLsbD i.val = (s.block.chan .encoder i).chg ∧
      bm.getLsbD i.val = (s.block.chan .button i).chg) ∧
    (∀ k i, t.block.chan k i = { s.block.chan k i with chg := false }) ∧
    SameReceiver s.block t.block ∧ SameFb s.block t.block ∧ SameErrors s.block t.block ∧ SamePorts s t

/-- R58: a second DRAIN with no update in between returns empty masks and changes no state but the outputs. -/
def Obligations.SecondDrainEmpty : Prop :=
  ∀ s t : State, exec .drain s = .next t → exec .drain t = .next { t with resp := .drain 0 0 }

/-- R195: the drain sequence holds `(k, i)` exactly when bit `i` of `k`'s mask is 1, encoders first, ascending. -/
def Obligations.DrainSequenceOrdered : Prop :=
  ∀ (n : Nat) (em bm : BitVec n),
    (∀ i, ((Kind.encoder, i) ∈ drainSequence em bm ↔ em.getLsbD i = true) ∧
      ((Kind.button, i) ∈ drainSequence em bm ↔ bm.getLsbD i = true)) ∧
    (drainSequence em bm).Pairwise DrainBefore

/-- R196: READ returns the channel's three fields and has no side effect; an index at or above `N_CH` is a host fault. -/
def Obligations.ReadReturnsChannelOrFaults : Prop :=
  ∀ (k : Kind) (idx : BitVec 8) (s : State),
    (∀ h : idx.toNat < Config.isc.nCh,
      exec (.read k idx) s = .next { s with
        resp := .read (s.block.chan k ⟨idx.toNat, h⟩).cur.toNat (s.block.chan k ⟨idx.toNat, h⟩).prev.toNat
          (s.block.chan k ⟨idx.toNat, h⟩).chg }) ∧
    (Config.isc.nCh ≤ idx.toNat → exec (.read k idx) s = .fault .readIndexOutOfRange)

/-! ### Status and control -/

/-- R220: NOP leaves the state unchanged; its record has no fields. -/
def Obligations.NopAnswersNothing : Prop :=
  ∀ s : State, exec .nop s = .next { s with resp := .none }

/-- R221, R37: RDSTAT returns every status field of one state and has no side effect; `any_changed` is 1 exactly when
some channel's flag is set. -/
def Obligations.RdstatReturnsStatus : Prop :=
  ∀ s : State, ∃ any : Bool, (any = true ↔ ∃ k i, (s.block.chan k i).chg = true) ∧
    exec .rdstat s = .next { s with
      resp := .rdstat ⟨s.block.rxState, s.block.rxLen, s.block.msgReady, s.block.errLast, s.block.cntOvf,
        s.block.cntUnk, s.block.cntMal, s.block.cntRng, s.block.cntBus, any⟩ }

/-- R90: a word with `OP` in 0xA..0xF is a host fault, and so are both RESERVED rows; no word but 0 runs as NOP. -/
def Obligations.ReservedWordsFault : Prop :=
  ∀ s : State,
    (∀ w : CmdWord, 0xA0000000 ≤ w.toNat → runCmd w s = .fault .reservedOpcode) ∧
    (∀ low, exec (.reservedAB low) s = .fault .reservedOpcode) ∧
    (∀ low, exec (.reservedCF low) s = .fault .reservedOpcode) ∧
    (∀ w : CmdWord, decodeCmd w = .ok .nop → w = 0)

/-! ### Encoding -/

/-- R91: a word with `OP` in 0x0..0x9 that matches no row is a host fault, and so is SNAP with `n` above 9. -/
def Obligations.UnusedFieldsFault : Prop :=
  ∀ (w : CmdWord) (s : State),
    (w.toNat < 0xA0000000 → (∀ r ∈ cmdRows, r.matches w = false) → runCmd w s = .fault .unusedField) ∧
    (0x6000000A ≤ w.toNat → w.toNat ≤ 0x6000000F → runCmd w s = .fault .snapLengthOver9)

/-- R89: a word decodes to an operation exactly by the row it matches, and the rows do not overlap. SNAP's row is
matched with `n` above 9 too, which decoding rejects (R91): the words 0x6000000A to 0x6000000F, and no other. -/
def Obligations.WordsSelectRows : Prop :=
  ∀ w : CmdWord,
    (∀ i, decodeCmd w = .ok i → ∃ r ∈ cmdRows, i.cmdRow = some r ∧ r.matches w = true) ∧
    (∀ r ∈ cmdRows, r.matches w = true →
      (∃ i, decodeCmd w = .ok i ∧ i.cmdRow = some r) ∨
      (decodeCmd w = .error .snapLengthOver9 ∧ 0x6000000A ≤ w.toNat ∧ w.toNat ≤ 0x6000000F)) ∧
    (∀ r ∈ cmdRows, ∀ r' ∈ cmdRows, r.matches w = true → r'.matches w = true → r = r')

/-- R88: the operands of a decoded command are the word's fields. -/
def Obligations.OperandsAreWordFields : Prop :=
  ∀ (w : CmdWord) (i : Instr), decodeCmd w = .ok i → OperandsAreFields w i

/-- Decode and encode agree: decoding the code of a well-formed instruction gives it back, every operand at every value
(R71, R74, R88 to R91). -/
def Obligations.DecodeEncodeAgree : Prop :=
  ∀ i : Instr, i.wf = true → decode (encode i) = .ok i

/-- The other direction: what a code decodes to is well formed and encodes to that code, so no two codes of a format
stand for one instruction and no bit of a code is dropped. -/
def Obligations.EncodeDecodeAgree : Prop :=
  ∀ (c : Code) (i : Instr), decode c = .ok i → i.wf = true ∧ encode i = c

/-- Words and bytes written out from the spec's encodings decode to what they stand for (R71, R74, R93 and the words of
95_test_vectors.md 2.1). -/
def Obligations.SpecWordsDecode : Prop :=
  decodeCmd 0x00000000#32 = .ok .nop ∧ decodeCmd 0x10000065#32 = .ok (.rxb 0x65#8) ∧
  decodeCmd 0x30000000#32 = .ok .pollNb ∧ decodeCmd 0x4002002D#32 = .ok (.apply .encoder 2 45) ∧
  decodeCmd 0x5803FFFE#32 = .ok (.diff .button 3 0xFFFE#16) ∧ decodeCmd 0x88020000#32 = .ok (.read .button 2) ∧
  decodeCmd 0x60000009#32 = .ok (.snap 9) ∧ decodeSerial 0x3B#8 = .term ∧ decodeKind 0x62#8 = .buttonUpdate

/-! ### Step, ports and reset -/

/-- R82, R83, R91, R270: a step runs the operation the oldest command decodes to, on the state with that command taken
and its reply bytes on `snap_data`; a word that decodes to nothing is a host fault; a command while `rst` is asserted is
refused (U13). The list of inputs, waiting while it is empty or its oldest entry carries no command, and placing a word
are the model's choices (log entries 3 and 9). -/
def Obligations.StepRunsDecodedCommand : Prop :=
  ∀ (s : State),
    (∀ x rest w, s.inputs = x :: rest → x.rst = false → x.cmd = some w →
      (∀ i, decodeCmd w = .ok i → step s = exec i { s with inputs := rest, snapData := x.snapData }) ∧
      (∀ e, decodeCmd w = .error e → step s = .fault (hostFaultOf e))) ∧
    (∀ x rest, s.inputs = x :: rest → x.rst = false → x.cmd = none →
      step s = .next { s with inputs := rest, snapData := x.snapData }) ∧
    (∀ x rest w, s.inputs = x :: rest → x.rst = true → x.cmd = some w → step s = .refused .commandDuringReset) ∧
    (s.inputs = [] → step s = .next s) ∧
    (∀ w i, decodeCmd w = .ok i → step (s.withFetchWord 32 w.toNat) = exec i s)

/-- R271: the reset step from any state gives every field but the frame buffer's cells, which R271 leaves unspecified, its
reset value. That a step takes the oldest entry of the list of inputs and leaves the others is the model's choice (DESIGN
CHOICE, log entry 3). -/
def Obligations.ResetInputSetsValues : Prop :=
  ∀ (s : State) (x : PortInput) (rest : List PortInput), s.inputs = x :: rest → x.rst = true → x.cmd = none →
    ∃ t, step s = .next t ∧ t.inputs = rest ∧
      t.block.rxState = .idle ∧ t.block.rxLen = 0 ∧ t.block.msgReady = false ∧
      (∀ k i, t.block.chan k i = { cur := 0, prev := 0, chg := false }) ∧
      t.block.cntOvf = 0 ∧ t.block.cntUnk = 0 ∧ t.block.cntMal = 0 ∧ t.block.cntRng = 0 ∧ t.block.cntBus = 0 ∧
      t.block.errLast = 0

/-- R271, R272, R37: the state after reset has the reset values and its three level outputs are 0; in every block the level
outputs are `RX.msg_ready`, whether the receiver is `Receiving`, and whether some channel's flag is set. -/
def Obligations.ResetStateValues : Prop :=
  State.reset.block.rxState = .idle ∧ State.reset.block.rxLen = 0 ∧ State.reset.block.msgReady = false ∧
  (∀ k i, State.reset.block.chan k i = { cur := 0, prev := 0, chg := false }) ∧
  State.reset.block.cntOvf = 0 ∧ State.reset.block.cntUnk = 0 ∧ State.reset.block.cntMal = 0 ∧
  State.reset.block.cntRng = 0 ∧ State.reset.block.cntBus = 0 ∧ State.reset.block.errLast = 0 ∧
  State.reset.block.msgReadyO = false ∧ State.reset.block.rxBusyO = false ∧ State.reset.block.anyChangedO = false ∧
  ∀ (n : Nat) (b : Block n), b.msgReadyO = b.msgReady ∧ (b.rxBusyO = true ↔ b.rxState = .receiving) ∧
    (b.anyChangedO = true ↔ ∃ k i, (b.chan k i).chg = true)

/-- R27: the invariant holds right after reset. The frame buffer's canonical form is the model's (log entry 2). -/
def Obligations.InvariantAtReset : Prop := State.reset.Inv

/-- R27, R36, R51: every step keeps the invariant, whatever the host puts on the ports: I-1, I-2 and I-3 of the
receiver, `ERR.last` in 0..5, and the frame buffer's canonical form within 0..31 (the form is the model's, log entry
2). -/
def Obligations.StepKeepsInvariant : Prop :=
  ∀ s t : State, s.Inv → step s = .next t → t.Inv

/-! ### Rules over all operations -/

/-- R125: only RXB, POLL with a byte, and the serial byte rows write `RX.state`, `RX.len` or a frame buffer cell, or set
`RX.msg_ready`. -/
def Obligations.OnlyByteOperationsWriteReceiver : Prop :=
  ∀ (i : Instr) (s t : State), exec i s = .next t →
    (∀ b, i ≠ .rxb b ∧ i ≠ .poll b ∧ i ≠ .ord b) → i ∉ [Instr.term, Instr.noiseNul, Instr.noiseLf, Instr.noiseCr] →
    t.block.rxState = s.block.rxState ∧ t.block.rxLen = s.block.rxLen ∧ SameFb s.block t.block ∧
      (t.block.msgReady = true → s.block.msgReady = true)

/-- R33, R32: over every operation, a changed flag once set stays set unless the operation is DRAIN; it is set exactly
when `cur` changes; `prev` becomes the old `cur` then, and only then is written. At reset every flag is 0. -/
def Obligations.ChangedFlagSticky : Prop :=
  (∀ (i : Instr) (s t : State), exec i s = .next t → ∀ (k : Kind) (j : Fin Config.isc.nCh),
    let c := s.block.chan k j
    let d := t.block.chan k j
    (i ≠ .drain → c.chg = true → d.chg = true) ∧
    (i = .drain → d.chg = false) ∧
    (d.chg = true → c.chg = true ∨ d.cur ≠ c.cur) ∧
    (d.cur ≠ c.cur → d.chg = true ∧ d.prev = c.cur) ∧
    (d.cur = c.cur → d.prev = c.prev)) ∧
  (∀ k j, (State.reset.block.chan k j).chg = false)

/-- R244: an operation that completes records no error or exactly one, one of those it may raise. -/
def Obligations.AtMostOneErrorRecorded : Prop :=
  ∀ (i : Instr) (s t : State), exec i s = .next t →
    SameErrors s.block t.block ∨ ∃ e ∈ errorsOf i, ErrorRecorded e s.block t.block

/-- R241, R240: recording an error writes its code and its own counter, modulo 2^16, and nothing else. -/
def Obligations.RaiseRecordsOneError : Prop :=
  ∀ (n : Nat) (e : ErrorKind) (s : Block n),
    ErrorRecorded e s (raise e s) ∧ SameReceiver s (raise e s) ∧ SameFb s (raise e s) ∧ SameTable s (raise e s) ∧
    [ErrorKind.transportOverflow, .parseErrorUnknownKind, .parseErrorMalformed, .channelOutOfRange,
      .busTransactionFailure].map ErrorKind.code = [1, 2, 3, 4, 5]

/-- R243: under the invariant a command word is a host fault exactly when its opcode is reserved, it matches no row, it
is SNAP with `n` above 9, or it is DIFF or READ with its index at or above `N_CH`. Every other word completes. -/
def Obligations.HostFaultsExactly : Prop :=
  ∀ (w : CmdWord) (s : State), s.Inv →
    let bad := 0xA0000000 ≤ w.toNat ∨ (∀ r ∈ cmdRows, r.matches w = false) ∨
      (0x6000000A ≤ w.toNat ∧ w.toNat ≤ 0x6000000F) ∨
      ((w.extractLsb' 28 4 = 5#4 ∨ w.extractLsb' 28 4 = 8#4) ∧ Config.isc.nCh ≤ (w.extractLsb' 16 8).toNat)
    (bad → ∃ f, f ≠ .fbIndexOutOfRange ∧ runCmd w s = .fault f) ∧ (¬bad → ∃ t, runCmd w s = .next t)

/-- R51, R281: under the invariant no operation makes a frame buffer access outside `FB[0..31]`, and no operation is
without a meaning. -/
def Obligations.NoAccessOutsideBuffer : Prop :=
  ∀ (i : Instr) (s : State), s.Inv → exec i s ≠ .fault .fbIndexOutOfRange ∧ ∀ q, exec i s ≠ .refused q

/-! ### Runs of operations -/

/-- R94: no POLL of a SEND holds, from a state with no frame held: each one takes its byte, and `RX.msg_ready` is 0
after it. -/
def Obligations.SendNeverHolds : Prop :=
  ∀ (s : State), s.Inv → s.block.msgReady = false → ∀ (pre : List Byte) (b : Byte),
    ∃ t u r p, execAll (send pre) s = .next t ∧ exec (.poll b) t = .next u ∧ u.resp = .poll r p ∧
      r.accepted = true ∧ u.block.msgReady = false

/-- R137 (b): a byte stream with no `';'` produces no frame, whatever its length: no channel changes and no frame is
held, and the only error it can record is the overflow. -/
def Obligations.NoFrameWithoutTerminator : Prop :=
  ∀ (s : State) (bs : List Byte), s.block.msgReady = false → (∀ b ∈ bs, b ≠ 0x3B#8) →
    ∃ t, execAll (feed bs) s = .next t ∧ t.block.msgReady = false ∧ SameTable s.block t.block ∧
      t.block.cntUnk = s.block.cntUnk ∧ t.block.cntMal = s.block.cntMal ∧ t.block.cntRng = s.block.cntRng ∧
      t.block.cntBus = s.block.cntBus

/-- R129, R137 (b): from `Idle`, 31 ordinary bytes are taken and the 32nd byte, of any class, overflows: back to `Idle`
with no frame, and `TransportOverflow` recorded once. -/
def Obligations.ThirtySecondByteOverflows : Prop :=
  ∀ (s : State) (bs : List Byte) (b : Byte), s.block.rxState = .idle → s.block.rxLen = 0 → s.block.msgReady = false →
    bs.length = 31 → (∀ x ∈ bs, x ∉ [0x3B#8, 0x0A#8, 0x0D#8, 0x00#8]) →
    ∃ t u, execAll (feed bs) s = .next t ∧ t.block.rxState = .receiving ∧ t.block.rxLen.toNat = 31 ∧
      SameErrors s.block t.block ∧
      exec (.rxb b) t = .next u ∧ u.resp = .rxb ⟨true, false, true⟩ ∧ u.block.rxState = .idle ∧ u.block.rxLen = 0 ∧
      u.block.msgReady = false ∧ ErrorRecorded .transportOverflow s.block u.block

/-- R133, R135, R137 (a), R73: from `Idle`, bytes with up to 30 ordinary ones among any number of noise bytes, then a
`';'`, leave exactly the ordinary bytes and the `';'` as the held frame; no channel and no counter is touched. -/
def Obligations.FrameAssembledFromStream : Prop :=
  ∀ (s : State) (bs : List Byte), s.Inv → s.block.rxState = .idle → s.block.msgReady = false →
    (∀ b ∈ bs, b ≠ 0x3B#8) →
    let f := bs.filter (fun b => b ∉ [0x0A#8, 0x0D#8, 0x00#8])
    1 ≤ f.length → f.length ≤ 30 →
    ∃ t, execAll (feed (bs ++ [0x3B#8])) s = .next t ∧ t.block.msgReady = true ∧ t.block.rxState = .idle ∧
      HeldFrame t.block (f ++ [0x3B#8]) ∧ SameTable s.block t.block ∧ SameErrors s.block t.block

/-- R171, R94, R168, R198: sending the text of a message byte by byte has the effect of APPLY with the same kind,
channel and value, for every 8-bit channel (in range or not) and every 16-bit value: same table, same counters, same
record, and the receiver back in `Idle` with nothing held. -/
def Obligations.SendMsgEqualsApply : Prop :=
  ∀ (k : Kind) (idx : BitVec 8) (imm : BitVec 16) (s : State), s.Inv → s.block.rxState = .idle →
    s.block.msgReady = false →
    ∃ t u p, execAll (sendMsg k idx.toNat imm.toInt) s = .next t ∧ exec (.apply k idx imm) s = .next u ∧
      SameTable u.block t.block ∧ SameErrors u.block t.block ∧ SameReceiver s.block t.block ∧ SamePorts s t ∧
      u.resp = .parse p ∧ t.resp = .poll ⟨true, true, false⟩ p

/-- R276: a byte that RXB holds is taken when it is presented again after a PARSE or a `POLL -`. -/
def Obligations.HoldLiftedByParse : Prop :=
  ∀ (s : State) (b : Byte), s.Inv → s.block.msgReady = true → ∀ i ∈ [Instr.parse, Instr.pollNb],
    ∃ t u r, exec (.rxb b) s = .next { s with resp := .rxb ⟨false, false, false⟩ } ∧
      exec i { s with resp := .rxb ⟨false, false, false⟩ } = .next t ∧ exec (.rxb b) t = .next u ∧
      u.resp = .rxb r ∧ r.accepted = true

/-- R285, R61: a run is a sequence of commands from reset, each seeing the state the earlier ones left and none of what
comes later: adding one command to a run that completed leaves the outputs it had, runs the command on the state it ended
in, and adds that command's outputs. The list of inputs is the model's form of the sequence (DESIGN CHOICE, log entry 3),
and an entry without a command adds no output. -/
def Obligations.RunExtendsByOneCommand : Prop :=
  run [] = { outputs := [], ending := .next State.reset } ∧
  ∀ (xs : List PortInput) (x : PortInput) (outs : List (Resp Config.isc.nCh)) (t : State),
    run xs = { outputs := outs, ending := .next t } → x.rst = false →
    (x.cmd = none →
      run (xs ++ [x]) = { outputs := outs, ending := .next { t with snapData := x.snapData } }) ∧
    (∀ w u, x.cmd = some w → runCmd w { t with snapData := x.snapData } = .next u →
      run (xs ++ [x]) = { outputs := outs ++ [u.resp], ending := .next u }) ∧
    (∀ w f, x.cmd = some w → runCmd w { t with snapData := x.snapData } = .fault f →
      run (xs ++ [x]) = { outputs := outs, ending := .fault f })

/-! ### Any parameters -/

/-- R5: the machine for any parameters. At this hardware's values its reset state and its step are `State.reset` and
`step`. For any values its reset state meets the invariant and its steps keep it (I-1 to I-3 of R27, and `ERR.last` in
0..5 of R36), APPLY and DIFF of a channel below `N_CH` go through the differ, READ returns the channel, and at or above
`N_CH` APPLY is a recorded drop and DIFF and READ are host faults (R105, R165, R196). The model's own choices: that the
host's fixed names are the machine at this hardware's values and that `machineFor` is the one for any (DESIGN CHOICE, log
entry 1), and the canonical form of the frame buffer in the invariant (DESIGN CHOICE, log entry 2). What
`SNAP_ENC_SIGNED` changes is stated of `snapBlock` in SnapForAnyParameters. -/
def Obligations.MachineForAnyParameters : Prop :=
  State.reset.toStateOf = StateOf.reset Config.isc ∧
  (∀ s t : State, step s = .next t → stepFor Config.isc s.toStateOf = .next t.toStateOf) ∧
  (∀ (s : State) (f : Fault), step s = .fault f → stepFor Config.isc s.toStateOf = .fault f) ∧
  (∀ (s : State) (q : Refusal), step s = .refused q → stepFor Config.isc s.toStateOf = .refused q) ∧
  ∀ p : Params,
    (StateOf.reset p).block.Inv ∧
    (∀ s t : StateOf p, s.block.Inv → stepFor p s = .next t → t.block.Inv) ∧
    (∀ (k : Kind) (idx : BitVec 8) (imm : BitVec 16) (s : StateOf p) (h : idx.toNat < p.nCh),
      (∀ i ∈ [Instr.apply k idx imm, Instr.diff k idx imm], ∃ t, execFor p i s = .next t ∧
        t.block.chan k ⟨idx.toNat, h⟩ = (s.block.chan k ⟨idx.toNat, h⟩).updated (norm k imm.toInt) ∧
        SameTableBut k ⟨idx.toNat, h⟩ s.block t.block ∧ SameErrors s.block t.block ∧ SameFb s.block t.block ∧
        SameReceiver s.block t.block ∧ t.snapData = s.snapData ∧ t.inputs = s.inputs) ∧
      execFor p (.read k idx) s = .next { s with
        resp := .read (s.block.chan k ⟨idx.toNat, h⟩).cur.toNat (s.block.chan k ⟨idx.toNat, h⟩).prev.toNat
          (s.block.chan k ⟨idx.toNat, h⟩).chg }) ∧
    (∀ (k : Kind) (idx : BitVec 8) (imm : BitVec 16) (s : StateOf p), p.nCh ≤ idx.toNat →
      execFor p (.apply k idx imm) s = .next { s with
        block := { s.block with errLast := 4, cntRng := s.block.cntRng + 1 }
        resp := .parse ⟨.range, .encoder, 0, 0, false⟩ } ∧
      execFor p (.diff k idx imm) s = .fault .diffIndexOutOfRange ∧
      execFor p (.read k idx) s = .fault .readIndexOutOfRange)
end

