-- ==== Sys2Proof/Laws/Decode.lean ====
section
/-! SUPPORT. The fields of a command word and the word of some fields undo each other (30_encoding.md R88); the rows a
byte matches (R71, R74). -/

namespace Sys2Proof

theorem concat_getLsbD (a : BitVec 4) (k v : BitVec 1) (z : BitVec 2) (x : BitVec 8) (i : BitVec 16) (j : Nat) :
    (CmdFields.toWord ⟨a, k, v, z, x, i⟩).getLsbD j =
      if j < 16 then i.getLsbD j else if j < 24 then x.getLsbD (j - 16) else if j < 26 then z.getLsbD (j - 24)
      else if j < 27 then v.getLsbD (j - 26) else if j < 28 then k.getLsbD (j - 27) else a.getLsbD (j - 28) := by
  show BitVec.getLsbD (a ++ k ++ v ++ z ++ x ++ i : BitVec (4 + 1 + 1 + 2 + 8 + 16)) j = _
  simp only [BitVec.getLsbD_append]
  split_ifs <;> first
    | rfl
    | omega

/-- `IMM` with a byte in its low bits and 0 above (R88, RXB and POLL). -/
theorem imm_byte_bit (b : Byte) (j : Nat) : BitVec.getLsbD (w := 16) (0#8 ++ b) j = b.getLsbD j := by
  show BitVec.getLsbD (0#8 ++ b : BitVec (8 + 8)) j = _
  rw [BitVec.getLsbD_append]
  by_cases h : j < 8
  · simp [h]
  · simp [h, BitVec.getLsbD_of_ge b j (by omega)]

/-- `IMM` with `n` in its low bits and 0 above (R88, SNAP). -/
theorem imm_nibble_bit (n : BitVec 4) (j : Nat) : BitVec.getLsbD (w := 16) (0#12 ++ n) j = n.getLsbD j := by
  show BitVec.getLsbD (0#12 ++ n : BitVec (12 + 4)) j = _
  rw [BitVec.getLsbD_append]
  by_cases h : j < 4
  · simp [h]
  · simp [h, BitVec.getLsbD_of_ge n j (by omega)]

/-- Reading back the fields of a word made from them. -/
@[simp] theorem ofWord_toWord (f : CmdFields) : CmdFields.ofWord f.toWord = f := by
  obtain ⟨a, k, v, z, x, i⟩ := f
  simp only [CmdFields.ofWord, CmdFields.mk.injEq]
  refine ⟨?_, ?_, ?_, ?_, ?_, ?_⟩ <;>
  · apply BitVec.eq_of_getLsbD_eq
    intro j hj
    rw [BitVec.getLsbD_extractLsb', concat_getLsbD]
    simp (disch := omega) only [hj, decide_true, Bool.true_and, Nat.add_sub_cancel_left, if_true, if_neg, if_pos,
      Nat.zero_add]

/-- A word is made of its fields. -/
@[simp] theorem toWord_ofWord (w : CmdWord) : (CmdFields.ofWord w).toWord = w := by
  apply BitVec.eq_of_getLsbD_eq
  intro j hj
  simp only [CmdFields.ofWord]
  rw [concat_getLsbD]
  simp only [BitVec.getLsbD_extractLsb']
  split
  · simp [*]
  split
  · rw [show 16 + (j - 16) = j by omega]; simp; omega
  split
  · rw [show 24 + (j - 24) = j by omega]; simp; omega
  split
  · rw [show 26 + (j - 26) = j by omega]; simp; omega
  split
  · rw [show 27 + (j - 27) = j by omega]; simp; omega
  · rw [show 28 + (j - 28) = j by omega]; simp; omega

@[simp] theorem ofBit_bit (k : Kind) : Kind.ofBit k.bit = k := by cases k <;> rfl

@[simp] theorem bit_ofBit (b : BitVec 1) : (Kind.ofBit b).bit = b := by revert b; decide

/-- ORD's well-formedness is its class (R71). -/
theorem wf_ord_iff (b : Byte) : (Instr.ord b).wf = true ↔ classify b = .ord := by
  simp only [Instr.wf, decide_eq_true_eq, classify]
  by_cases h1 : b = 0x3B#8
  · simp [h1]
  · by_cases h2 : b = 0x0A#8 ∨ b = 0x0D#8 ∨ b = 0x00#8
    · rcases h2 with rfl | rfl | rfl <;> decide
    · simp only [not_or] at h2
      simp [h1, h2]

/-- UnknownKind's well-formedness is that it has no kind (R74). -/
theorem wf_unknownKind_iff (b : Byte) : (Instr.unknownKind b).wf = true ↔ kindOf b = none := by
  simp only [Instr.wf, decide_eq_true_eq, kindOf]
  by_cases h1 : b = 0x65#8
  · simp [h1]
  · by_cases h2 : b = 0x62#8
    · subst h2
      decide
    · simp [h1, h2]

end Sys2Proof
end

