-- ==== Sys2Proof/Laws/State.lean ====
section
/-! SUPPORT. One lemma per field and named update of the state: what each update leaves and what it writes. -/

namespace Sys2Proof.Machine

variable {n : Nat}

/-! ### Recording an error -/

@[simp] theorem raise_rxState (e : ErrorKind) (s : Block n) : (raise e s).rxState = s.rxState := by cases e <;> rfl
@[simp] theorem raise_rxLen (e : ErrorKind) (s : Block n) : (raise e s).rxLen = s.rxLen := by cases e <;> rfl
@[simp] theorem raise_msgReady (e : ErrorKind) (s : Block n) : (raise e s).msgReady = s.msgReady := by cases e <;> rfl
@[simp] theorem raise_fb (e : ErrorKind) (s : Block n) : (raise e s).fb = s.fb := by cases e <;> rfl
@[simp] theorem raise_enc (e : ErrorKind) (s : Block n) : (raise e s).enc = s.enc := by cases e <;> rfl
@[simp] theorem raise_btn (e : ErrorKind) (s : Block n) : (raise e s).btn = s.btn := by cases e <;> rfl
@[simp] theorem raise_errLast (e : ErrorKind) (s : Block n) : (raise e s).errLast = e.code := by cases e <;> rfl

@[simp] theorem raise_chan (e : ErrorKind) (s : Block n) (k : Kind) (i : Fin n) : (raise e s).chan k i = s.chan k i := by
  cases e <;> cases k <;> rfl

theorem code_le_five (e : ErrorKind) : e.code.toNat ≤ 5 := by cases e <;> decide

/-! ### Replacing one channel -/

@[simp] theorem setChan_rxState (s : Block n) (k : Kind) (i : Fin n) (c : Chan k.width) :
    (s.setChan k i c).rxState = s.rxState := by cases k <;> rfl
@[simp] theorem setChan_rxLen (s : Block n) (k : Kind) (i : Fin n) (c : Chan k.width) :
    (s.setChan k i c).rxLen = s.rxLen := by cases k <;> rfl
@[simp] theorem setChan_msgReady (s : Block n) (k : Kind) (i : Fin n) (c : Chan k.width) :
    (s.setChan k i c).msgReady = s.msgReady := by cases k <;> rfl
@[simp] theorem setChan_fb (s : Block n) (k : Kind) (i : Fin n) (c : Chan k.width) :
    (s.setChan k i c).fb = s.fb := by cases k <;> rfl
@[simp] theorem setChan_cntOvf (s : Block n) (k : Kind) (i : Fin n) (c : Chan k.width) :
    (s.setChan k i c).cntOvf = s.cntOvf := by cases k <;> rfl
@[simp] theorem setChan_cntUnk (s : Block n) (k : Kind) (i : Fin n) (c : Chan k.width) :
    (s.setChan k i c).cntUnk = s.cntUnk := by cases k <;> rfl
@[simp] theorem setChan_cntMal (s : Block n) (k : Kind) (i : Fin n) (c : Chan k.width) :
    (s.setChan k i c).cntMal = s.cntMal := by cases k <;> rfl
@[simp] theorem setChan_cntRng (s : Block n) (k : Kind) (i : Fin n) (c : Chan k.width) :
    (s.setChan k i c).cntRng = s.cntRng := by cases k <;> rfl
@[simp] theorem setChan_cntBus (s : Block n) (k : Kind) (i : Fin n) (c : Chan k.width) :
    (s.setChan k i c).cntBus = s.cntBus := by cases k <;> rfl
@[simp] theorem setChan_errLast (s : Block n) (k : Kind) (i : Fin n) (c : Chan k.width) :
    (s.setChan k i c).errLast = s.errLast := by cases k <;> rfl

@[simp] theorem chan_setChan_same (s : Block n) (k : Kind) (i : Fin n) (c : Chan k.width) :
    (s.setChan k i c).chan k i = c := by
  cases k <;> simp [Block.setChan, Block.chan]

theorem chan_setChan_index (s : Block n) (k : Kind) (i j : Fin n) (c : Chan k.width) (h : i ≠ j) :
    (s.setChan k i c).chan k j = s.chan k j := by
  have h' : i.val ≠ j.val := fun e => h (Fin.ext e)
  cases k <;> simp [Block.setChan, Block.chan, Vector.getElem_set_ne, h']

theorem chan_setChan_kind (s : Block n) (k k' : Kind) (i j : Fin n) (c : Chan k.width) (h : k ≠ k') :
    (s.setChan k i c).chan k' j = s.chan k' j := by
  cases k <;> cases k' <;> first | rfl | exact absurd rfl h

/-- Two channel tables with the same channels are the same table. -/
theorem bank_ext {s t : Block n} (h : ∀ k i, s.chan k i = t.chan k i) : s.enc = t.enc ∧ s.btn = t.btn := by
  constructor
  · ext i hi : 1
    exact h .encoder ⟨i, hi⟩
  · ext i hi : 1
    exact h .button ⟨i, hi⟩

/-! ### Reset and the ports -/

@[simp] theorem resetStep_fb (s : Block n) : s.resetStep.fb = s.fb := rfl
@[simp] theorem resetStep_rxState (s : Block n) : s.resetStep.rxState = .idle := rfl
@[simp] theorem resetStep_rxLen (s : Block n) : s.resetStep.rxLen = 0 := rfl
@[simp] theorem resetStep_msgReady (s : Block n) : s.resetStep.msgReady = false := rfl
@[simp] theorem resetStep_errLast (s : Block n) : s.resetStep.errLast = 0 := rfl

@[simp] theorem resetStep_chan (s : Block n) (k : Kind) (i : Fin n) : s.resetStep.chan k i = Chan.zero := by
  cases k <;> simp [Block.chan, Block.resetStep]

@[simp] theorem applyReset_block (s : State) : (applyReset s).block = s.block.resetStep := rfl
@[simp] theorem applyReset_inputs (s : State) : (applyReset s).inputs = s.inputs := rfl
@[simp] theorem applyReset_snapData (s : State) : (applyReset s).snapData = s.snapData := rfl
@[simp] theorem applyReset_resp (s : State) : (applyReset s).resp = .none := rfl

@[simp] theorem issue_block (x : PortInput) (s : State) : (s.issue x).block = s.block := rfl
@[simp] theorem issue_inputs (x : PortInput) (s : State) : (s.issue x).inputs = s.inputs ++ [x] := rfl
@[simp] theorem issue_resp (x : PortInput) (s : State) : (s.issue x).resp = s.resp := rfl

@[simp] theorem pushCmd_block (w : CmdWord) (s : State) : (s.pushCmd w).block = s.block := rfl
@[simp] theorem pushCmd_snapData (w : CmdWord) (s : State) : (s.pushCmd w).snapData = s.snapData := rfl
@[simp] theorem pushCmd_resp (w : CmdWord) (s : State) : (s.pushCmd w).resp = s.resp := rfl
@[simp] theorem pushCmd_inputs (w : CmdWord) (s : State) :
    (s.pushCmd w).inputs = PortInput.ofWord w s.snapData :: s.inputs := rfl

/-- The host's flush touches its own queue only (OPEN-1: "the block's step is the same either way"). -/
theorem hostFlush_keeps (k : Nat) (s : State) :
    (s.hostFlush k).block = s.block ∧ (s.hostFlush k).resp = s.resp ∧ (s.hostFlush k).snapData = s.snapData := by
  unfold State.hostFlush
  split <;> exact ⟨rfl, rfl, rfl⟩

/-! ### Completing -/

@[simp] theorem record_ok {α : Type} (out : α → Resp n) (x : Block n × α) : record out (.ok x) = .ok (x.1, out x.2) := rfl

@[simp] theorem record_error {α : Type} (out : α → Resp n) (f : Fault) : record out (.error f) = .error f := rfl

/-- Every recorded result is the result with its record. -/
theorem record_eq_ok {α : Type} {out : α → Resp n} {r : Except Fault (Block n × α)} {y : Block n × Resp n}
    (h : record out r = .ok y) : ∃ x, r = .ok x ∧ y = (x.1, out x.2) := by
  cases r with
  | ok x => exact ⟨x, rfl, by simpa using h.symm⟩
  | error e => simp at h

@[simp] theorem completeBy_ok {σ : Type} (put : Block n → Resp n → σ) (x : Block n × Resp n) :
    completeBy put (.ok x) = .next (put x.1 x.2) := rfl

@[simp] theorem completeBy_error {σ : Type} (put : Block n → Resp n → σ) (f : Fault) :
    completeBy put (.error f) = .fault f := rfl

@[simp] theorem complete_ok (s : State) (x : Block Config.isc.nCh × Resp Config.isc.nCh) :
    complete s (.ok x) = .next { s with block := x.1, resp := x.2 } := rfl

@[simp] theorem complete_error (s : State) (f : Fault) : complete s (.error f) = .fault f := rfl

/-- What completing an operation can answer: a next state from a result, or the fault. -/
theorem complete_next {s t : State} {r : BlockResult Config.isc.nCh} (h : complete s r = .next t) :
    ∃ x, r = .ok x ∧ t = { s with block := x.1, resp := x.2 } := by
  cases r with
  | ok x => exact ⟨x, rfl, by simpa using h.symm⟩
  | error e => simp at h

theorem complete_fault {s : State} {r : BlockResult Config.isc.nCh} {f : Fault} (h : complete s r = .fault f) :
    r = .error f := by
  cases r with
  | ok x => simp at h
  | error e => simpa using h

theorem complete_not_refused (s : State) (r : BlockResult Config.isc.nCh) (q : Refusal) : complete s r ≠ .refused q := by
  cases r <;> simp

end Sys2Proof.Machine
end

