-- ==== Sys2Proof/Laws/Differ.lean ====
section
/-! SUPPORT. What one differ update does, said once (40_bus_differ.md R101, R104), and what DIFF and APPLY do with it. -/

namespace Sys2Proof.Machine

variable {n : Nat}

/-- The updated channel (R101). -/
theorem differUpdate_chan_same (s : Block n) (k : Kind) (i : Fin n) (u : BitVec k.width) :
    (differUpdate k i u s).1.chan k i = (s.chan k i).updated u := by
  unfold differUpdate Chan.updated
  by_cases h : u = (s.chan k i).cur <;> simp [h]

/-- The returned flag (R101). -/
theorem differUpdate_changed (s : Block n) (k : Kind) (i : Fin n) (u : BitVec k.width) :
    (differUpdate k i u s).2 = decide (u ≠ (s.chan k i).cur) := by
  unfold differUpdate
  by_cases h : u = (s.chan k i).cur <;> simp [h]

/-- Every other channel is untouched (R104). -/
theorem differUpdate_other (s : Block n) (k : Kind) (i : Fin n) (u : BitVec k.width) :
    SameTableBut k i s (differUpdate k i u s).1 := by
  intro k' j hne
  unfold differUpdate
  by_cases h : u = (s.chan k i).cur
  · simp [h]
  · simp only [h, ne_eq, not_false_eq_true, if_true]
    by_cases hk : k' = k
    · subst hk
      exact chan_setChan_index s k' i j _ (fun e => hne ⟨rfl, e.symm⟩)
    · exact chan_setChan_kind s k k' i j _ (fun e => hk e.symm)

@[simp] theorem differUpdate_rxState (s : Block n) (k : Kind) (i : Fin n) (u : BitVec k.width) :
    (differUpdate k i u s).1.rxState = s.rxState := by unfold differUpdate; dsimp only; split <;> simp
@[simp] theorem differUpdate_rxLen (s : Block n) (k : Kind) (i : Fin n) (u : BitVec k.width) :
    (differUpdate k i u s).1.rxLen = s.rxLen := by unfold differUpdate; dsimp only; split <;> simp
@[simp] theorem differUpdate_msgReady (s : Block n) (k : Kind) (i : Fin n) (u : BitVec k.width) :
    (differUpdate k i u s).1.msgReady = s.msgReady := by unfold differUpdate; dsimp only; split <;> simp
@[simp] theorem differUpdate_fb (s : Block n) (k : Kind) (i : Fin n) (u : BitVec k.width) :
    (differUpdate k i u s).1.fb = s.fb := by unfold differUpdate; dsimp only; split <;> simp
@[simp] theorem differUpdate_errLast (s : Block n) (k : Kind) (i : Fin n) (u : BitVec k.width) :
    (differUpdate k i u s).1.errLast = s.errLast := by unfold differUpdate; dsimp only; split <;> simp

/-- No counter and no `ERR.last` is written (R103: "raises no error"). -/
theorem differUpdate_errors (s : Block n) (k : Kind) (i : Fin n) (u : BitVec k.width) :
    SameErrors s (differUpdate k i u s).1 := by
  unfold differUpdate SameErrors
  dsimp only
  split <;> simp

/-- `cur` after an update is the value given, changed or not (R102). -/
theorem updated_cur {w : Nat} (c : Chan w) (u : BitVec w) : (c.updated u).cur = u := by
  unfold Chan.updated
  split <;> simp_all

/-- `chg` is never cleared by an update (R33). -/
theorem updated_chg {w : Nat} (c : Chan w) (u : BitVec w) (h : c.chg = true) : (c.updated u).chg = true := by
  unfold Chan.updated
  split <;> simp_all

/-- `apply_msg` inside the range (R166). -/
theorem applyMsg_inside (p : Params) (k : Kind) (ch v : Int) (s : Block p.nCh) (h : 0 ≤ ch ∧ ch < (p.nCh : Int)) :
    applyMsg p k ch v s =
      ((differUpdate k ⟨ch.toNat, by omega⟩ (norm k v) s).1,
        { outcome := .applied, kind := k, ch := ch.toNat, value := (norm k v).toNat,
          changed := (differUpdate k ⟨ch.toNat, by omega⟩ (norm k v) s).2 }) := by
  simp [applyMsg, h]

/-- `apply_msg` outside the range (R165). -/
theorem applyMsg_outside (p : Params) (k : Kind) (ch v : Int) (s : Block p.nCh) (h : ch < 0 ∨ (p.nCh : Int) ≤ ch) :
    applyMsg p k ch v s = (raise .channelOutOfRange s, ParseOut.bare .range) := by
  have : ¬(0 ≤ ch ∧ ch < (p.nCh : Int)) := by omega
  simp [applyMsg, this]

/-- DIFF inside the range (R105). -/
theorem diffBlock_inside (p : Params) (k : Kind) (idx : Nat) (v : Int) (s : Block p.nCh) (h : idx < p.nCh) :
    diffBlock p k idx v s =
      .ok ((differUpdate k ⟨idx, h⟩ (norm k v) s).1,
        ((norm k v).toNat, (differUpdate k ⟨idx, h⟩ (norm k v) s).2)) := by
  simp [diffBlock, h, differUpdate_chan_same, updated_cur]

end Sys2Proof.Machine
end

