-- ==== Sys2Proof/Laws/Memory.lean ====
section
/-! SUPPORT. The frame buffer: read after write, other cells untouched, the canonical form kept, equal contents are equal
data (20_memory.md R51). -/

namespace Sys2Proof.Machine

@[simp] theorem read_nil (a : Nat) : Memory.read [] a = Memory.unlisted := rfl

@[simp] theorem wf_nil : Memory.wf [] = true := rfl

/-- Reading the cell just written. The order of the listed cells is what makes it true. -/
theorem read_write_same (m : Memory) (h : m.wf) (a : Nat) (v : Byte) : (m.write a v).read a = v := by
  induction m with
  | nil => unfold Memory.write; split <;> simp_all [Memory.read]
  | cons c m ih =>
    simp only [Memory.wf, Bool.and_eq_true, decide_eq_true_eq, List.all_eq_true] at h
    have above : ∀ b, (∀ d ∈ m, b < d.1) → Memory.read m b = Memory.unlisted := by
      intro b hb
      clear ih h
      induction m with
      | nil => rfl
      | cons d m ih2 =>
        have := hb d (by simp)
        have hne : b ≠ d.1 := by omega
        simp only [Memory.read, hne, if_false]
        exact ih2 (fun d hd => hb d (by simp [hd]))
    simp only [Memory.write]
    split
    · rename_i hlt
      split
      · rename_i hv
        subst hv
        have hne : a ≠ c.1 := by omega
        simp only [Memory.read, hne, if_false]
        exact above a (fun d hd => by have := h.1.2 d hd; omega)
      · simp [Memory.read]
    · split
      · rename_i heq
        split
        · rename_i hv
          subst hv
          exact above a (fun d hd => by have := h.1.2 d hd; omega)
        · simp [Memory.read]
      · rename_i hne
        simp only [Memory.read, hne, if_false]
        exact ih h.2

/-- A write leaves every other cell alone. -/
theorem read_write_other (m : Memory) (a b : Nat) (v : Byte) (hab : b ≠ a) : (m.write a v).read b = m.read b := by
  induction m with
  | nil => unfold Memory.write; split <;> simp [Memory.read, hab]
  | cons c m ih =>
    simp only [Memory.write]
    split
    · split <;> simp [Memory.read, hab]
    · split
      · rename_i heq
        have hbc : b ≠ c.1 := by omega
        split <;> simp [Memory.read, hab, hbc]
      · simp only [Memory.read, ih]

theorem write_bound (m : Memory) (a : Nat) (v : Byte) (lo : Nat) (ha : lo < a) (h : ∀ d ∈ m, lo < d.1) :
    ∀ d ∈ m.write a v, lo < d.1 := by
  induction m with
  | nil => unfold Memory.write; split <;> simp_all
  | cons c m ih =>
    have hc := h c (by simp)
    have hm : ∀ d ∈ m, lo < d.1 := fun d hd => h d (by simp [hd])
    simp only [Memory.write]
    intro d hd
    split at hd
    · split at hd
      · exact h d hd
      · rcases List.mem_cons.mp hd with rfl | hd
        · exact ha
        · exact h d hd
    · split at hd
      · split at hd
        · exact hm d hd
        · rcases List.mem_cons.mp hd with rfl | hd
          · exact ha
          · exact hm d hd
      · rcases List.mem_cons.mp hd with rfl | hd
        · exact hc
        · exact ih hm d hd

/-- A write inside the buffer keeps the canonical form. -/
theorem write_keeps_wf (m : Memory) (h : m.wf) (a : Nat) (ha : a < Config.fbCap) (v : Byte) : (m.write a v).wf := by
  induction m with
  | nil => unfold Memory.write; split <;> simp_all [Memory.wf]
  | cons c m ih =>
    have h0 := h
    simp only [Memory.wf, Bool.and_eq_true, decide_eq_true_eq, List.all_eq_true] at h
    obtain ⟨⟨⟨hc, hu⟩, hall⟩, hm⟩ := h
    simp only [Memory.write]
    split
    · rename_i hlt
      split
      · exact h0
      · rename_i hv
        simp only [Memory.wf, Bool.and_eq_true, decide_eq_true_eq, List.all_eq_true]
        refine ⟨⟨⟨ha, hv⟩, ?_⟩, ⟨⟨⟨hc, hu⟩, hall⟩, hm⟩⟩
        intro d hd
        rcases List.mem_cons.mp hd with rfl | hd
        · exact hlt
        · have := hall d hd; omega
    · split
      · rename_i heq
        split
        · exact hm
        · rename_i hv
          simp only [Memory.wf, Bool.and_eq_true, decide_eq_true_eq, List.all_eq_true]
          exact ⟨⟨⟨ha, hv⟩, fun d hd => by have := hall d hd; omega⟩, hm⟩
      · simp only [Memory.wf, Bool.and_eq_true, decide_eq_true_eq, List.all_eq_true]
        exact ⟨⟨⟨hc, hu⟩, write_bound m a v c.1 (by omega) hall⟩, ih hm⟩

theorem read_below (m : Memory) (a : Nat) (h : ∀ d ∈ m, a < d.1) : m.read a = Memory.unlisted := by
  induction m with
  | nil => rfl
  | cons c m ih =>
    have hne : a ≠ c.1 := by have := h c (by simp); omega
    simp only [Memory.read, hne, if_false]
    exact ih (fun d hd => h d (by simp [hd]))

/-- Canonical memories with the same contents are the same data. -/
theorem wf_ext (m m' : Memory) (h : m.wf) (h' : m'.wf) (he : ∀ a, m.read a = m'.read a) : m = m' := by
  induction m generalizing m' with
  | nil =>
    cases m' with
    | nil => rfl
    | cons c m' =>
      simp only [Memory.wf, Bool.and_eq_true, decide_eq_true_eq] at h'
      have := he c.1
      simp [Memory.read] at this
      exact absurd this.symm h'.1.1.2
  | cons c m ih =>
    have hw := h
    simp only [Memory.wf, Bool.and_eq_true, decide_eq_true_eq, List.all_eq_true] at h
    cases m' with
    | nil =>
      have := he c.1
      simp [Memory.read] at this
      exact absurd this h.1.1.2
    | cons d m' =>
      have hw' := h'
      simp only [Memory.wf, Bool.and_eq_true, decide_eq_true_eq, List.all_eq_true] at h'
      have hcd : c.1 = d.1 := by
        by_contra hne
        rcases Nat.lt_or_gt_of_ne hne with hlt | hgt
        · have h1 := he c.1
          rw [read_below (d :: m') c.1 (by
            intro x hx
            rcases List.mem_cons.mp hx with rfl | hx
            · exact hlt
            · have := h'.1.2 x hx; omega)] at h1
          simp [Memory.read] at h1
          exact h.1.1.2 h1
        · have h1 := he d.1
          rw [read_below (c :: m) d.1 (by
            intro x hx
            rcases List.mem_cons.mp hx with rfl | hx
            · exact hgt
            · have := h.1.2 x hx; omega)] at h1
          simp [Memory.read] at h1
          exact h'.1.1.2 h1.symm
      have hv : c.2 = d.2 := by
        have h1 := he c.1
        simp [Memory.read, hcd] at h1
        exact h1
      have htail : m = m' := by
        refine ih m' h.2 h'.2 (fun a => ?_)
        by_cases ha : a = c.1
        · subst ha
          rw [read_below m c.1 h.1.2, read_below m' c.1 (fun x hx => by have := h'.1.2 x hx; omega)]
        · have h1 := he a
          have ha' : a ≠ d.1 := by omega
          simpa [Memory.read, ha, ha'] using h1
      rw [htail, Prod.ext hcd hv]

variable {n : Nat}

/-- A read inside the buffer. -/
@[simp] theorem memRead_inside (s : Block n) (a : Nat) (h : a < 32) : memRead s a = .ok (s.fb.read a) := by
  simp [memRead, h]

/-- A write inside the buffer. -/
@[simp] theorem memWrite_inside (s : Block n) (a : Nat) (v : Byte) (h : a < 32) :
    memWrite a v s = .ok { s with fb := s.fb.write a v } := by
  simp [memWrite, h]

/-- An access outside the buffer faults. -/
theorem memRead_outside (s : Block n) (a : Nat) (h : 32 ≤ a) : memRead s a = .error .fbIndexOutOfRange := by
  have : ¬ a < 32 := by omega
  simp [memRead, this]

theorem memWrite_outside (s : Block n) (a : Nat) (v : Byte) (h : 32 ≤ a) :
    memWrite a v s = .error .fbIndexOutOfRange := by
  have : ¬ a < 32 := by omega
  simp [memWrite, this]

end Sys2Proof.Machine
end

