-- ==== Sys2Proof/Laws/Parser.lean ====
section
/-! SUPPORT. The held frame and what the parser can do with it, said once (42_message_parser.md R160 to R167). -/

namespace Sys2Proof.Machine

variable {n : Nat}

/-- The search from cell `a` answers the bytes up to the first `';'` at or after it (R160). -/
theorem frameFrom_found (s : Block n) (fuel a k : Nat) (hfuel : a + fuel = 32) (hak : a ≤ k) (hk : k < 32)
    (hsemi : s.fb.read k = Ascii.semi) (hno : ∀ j, a ≤ j → j < k → s.fb.read j ≠ Ascii.semi) :
    frameFrom s fuel a = .ok ((List.range' a (k + 1 - a)).map s.fb.read) := by
  induction fuel generalizing a with
  | zero => omega
  | succ fuel ih =>
    have ha : a < 32 := by omega
    rw [frameFrom, memRead_inside s a ha]
    by_cases e : a = k
    · subst e
      have : a + 1 - a = 1 := by omega
      simp [hsemi, this]
    · have hne : s.fb.read a ≠ Ascii.semi := hno a (Nat.le_refl a) (by omega)
      have hlen : k + 1 - a = (k + 1 - (a + 1)) + 1 := by omega
      simp only [hne, if_false]
      rw [ih (a + 1) (by omega) (by omega) (fun j h1 h2 => hno j (by omega) h2), hlen, List.range'_succ]
      simp

/-- The held frame is what the search answers (R28, R160). -/
theorem heldFrame_of (s : Block n) (f : List Byte) (h : HeldFrame s f) : heldFrame s = .ok f := by
  obtain ⟨k, hk, hf, hsemi, hno⟩ := h
  rw [heldFrame, frameFrom_found s 32 0 k (by omega) (by omega) hk hsemi (fun j _ h2 => hno j h2), hf,
    List.range_eq_range']
  simp

/-- The search depends on the buffer alone. -/
theorem frameFrom_fb (s t : Block n) (h : s.fb = t.fb) (fuel a : Nat) : frameFrom s fuel a = frameFrom t fuel a := by
  induction fuel generalizing a with
  | zero => rfl
  | succ fuel ih => simp only [frameFrom, memRead, h, ih]

/-- Under the invariant a held frame stands in the buffer (R28). -/
theorem inv_heldFrame (s : Block n) (h : s.Inv) (hm : s.msgReady = true) : ∃ f, HeldFrame s f := by
  obtain ⟨_, _, k, hk, _, hord, hsemi, _⟩ := h.held hm
  refine ⟨_, k, by omega, rfl, hsemi, fun j hj e => ?_⟩
  have := hord j hj
  rw [e] at this
  exact absurd this (by decide)

/-- What PARSE does with no frame held (R167). -/
theorem parseWith_idle (p : Params) (dec : List Byte → FrameDecode) (s : Block p.nCh) (hm : s.msgReady = false) :
    parseWith p dec s = .ok (s, ParseOut.bare .none) := by
  simp [parseWith, hm]

/-- What PARSE does with the frame `f` held (R167). -/
theorem parseWith_held (p : Params) (dec : List Byte → FrameDecode) (s : Block p.nCh) (f : List Byte)
    (hm : s.msgReady = true) (hf : HeldFrame s f) :
    parseWith p dec s =
      match dec f with
      | .unknown => .ok (raise .parseErrorUnknownKind { s with msgReady := false }, ParseOut.bare .unknown)
      | .malformed => .ok (raise .parseErrorMalformed { s with msgReady := false }, ParseOut.bare .malformed)
      | .ok k ch v => .ok (applyMsg p k ch v { s with msgReady := false }) := by
  have : heldFrame { s with msgReady := false } = .ok f := heldFrame_of _ f hf
  cases hd : dec f <;> simp [parseWith, hm, this, hd]

/-- Whenever PARSE completes, it is one of these: nothing held, a drop that is recorded, or an applied message. -/
theorem parseWith_cases (p : Params) (dec : List Byte → FrameDecode) (s : Block p.nCh) (x : Block p.nCh × ParseOut)
    (h : parseWith p dec s = .ok x) :
    (s.msgReady = false ∧ x = (s, ParseOut.bare .none)) ∨
    (s.msgReady = true ∧ ∃ e o, x = (raise e { s with msgReady := false }, ParseOut.bare o)) ∨
    (s.msgReady = true ∧ ∃ k, ∃ i : Fin p.nCh, ∃ u o, x = ((differUpdate k i u { s with msgReady := false }).1, o)) := by
  unfold parseWith at h
  by_cases hm : s.msgReady = true
  · simp only [hm, if_true] at h
    cases hf : heldFrame { s with msgReady := false } with
    | error e => simp [hf] at h
    | ok f =>
      simp only [hf] at h
      cases hd : dec f with
      | unknown => simp only [hd, Except.ok.injEq] at h; exact .inr (.inl ⟨hm, _, _, h.symm⟩)
      | malformed => simp only [hd, Except.ok.injEq] at h; exact .inr (.inl ⟨hm, _, _, h.symm⟩)
      | ok k ch v =>
        simp only [hd, Except.ok.injEq] at h
        by_cases hr : 0 ≤ ch ∧ ch < (p.nCh : Int)
        · rw [applyMsg_inside p k ch v _ hr] at h
          exact .inr (.inr ⟨hm, _, _, _, _, h.symm⟩)
        · rw [applyMsg_outside p k ch v _ (by omega)] at h
          exact .inr (.inl ⟨hm, _, _, h.symm⟩)
  · simp only [hm, Bool.false_eq_true, if_false, Except.ok.injEq] at h
    exact .inl ⟨by simpa using hm, h.symm⟩

end Sys2Proof.Machine
end

