-- ==== Sys2Proof/Laws/Receiver.lean ====
section
/-! SUPPORT. What the receiver can do with one byte, said once (41_frame_receiver.md R128 to R135). -/

namespace Sys2Proof.Machine

variable {n : Nat}

/-- Every row of the receiver: the hold, the overflow, a byte that is ignored, a byte stored first, a byte appended, or a
frame completed. No row faults, in any state (R51). -/
theorem receiveAs_cases (cls : ByteClass) (b : Byte) (s : Block n) :
    (s.msgReady = true ∧ receiveAs cls b s = .ok (s, RxOut.held)) ∨
    (s.msgReady = false ∧ 30 < s.rxLen.toNat ∧ receiveAs cls b s =
      .ok (raise .transportOverflow { s with rxLen := 0, rxState := .idle }, RxOut.overflowed)) ∨
    (s.msgReady = false ∧ s.rxLen.toNat ≤ 30 ∧ (cls = .noise ∨ (s.rxState = .idle ∧ cls = .term)) ∧
      receiveAs cls b s = .ok (s, RxOut.taken)) ∨
    (s.msgReady = false ∧ s.rxLen.toNat ≤ 30 ∧ s.rxState = .idle ∧ cls = .ord ∧ receiveAs cls b s =
      .ok ({ s with fb := s.fb.write 0 b, rxLen := 1, rxState := .receiving }, RxOut.taken)) ∨
    (s.msgReady = false ∧ s.rxLen.toNat ≤ 30 ∧ s.rxState = .receiving ∧ cls = .ord ∧ receiveAs cls b s =
      .ok ({ s with fb := s.fb.write s.rxLen.toNat b, rxLen := s.rxLen + 1 }, RxOut.taken)) ∨
    (s.msgReady = false ∧ s.rxLen.toNat ≤ 30 ∧ s.rxState = .receiving ∧ cls = .term ∧ receiveAs cls b s =
      .ok ({ s with
        fb := (s.fb.write s.rxLen.toNat Ascii.semi).write (s.rxLen.toNat + 1) Ascii.nul
        msgReady := true, rxLen := 0, rxState := .idle }, RxOut.framed)) := by
  unfold receiveAs
  by_cases hm : s.msgReady = true
  · simp [hm]
  · by_cases hl : 30 < s.rxLen.toNat
    · simp [hm, hl]
    · have h32 : s.rxLen.toNat < 32 := by omega
      have h33 : s.rxLen.toNat + 1 < 32 := by omega
      have hle : s.rxLen.toNat ≤ 30 := by omega
      cases hs : s.rxState <;> cases cls <;> simp [hm, hl, h32, h33, hle, hs]

/-- The receiver never faults (R51, R281). -/
theorem receiveAs_ok (cls : ByteClass) (b : Byte) (s : Block n) : ∃ x, receiveAs cls b s = .ok x := by
  rcases receiveAs_cases cls b s with ⟨_, h⟩ | ⟨_, _, h⟩ | ⟨_, _, _, h⟩ | ⟨_, _, _, _, h⟩ | ⟨_, _, _, _, h⟩ |
    ⟨_, _, _, _, h⟩ <;> exact ⟨_, h⟩

/-- The receiver writes no channel. -/
theorem receiveAs_table (cls : ByteClass) (b : Byte) (s : Block n) (x : Block n × RxOut)
    (h : receiveAs cls b s = .ok x) : x.1.enc = s.enc ∧ x.1.btn = s.btn := by
  rcases receiveAs_cases cls b s with ⟨_, e⟩ | ⟨_, _, e⟩ | ⟨_, _, _, e⟩ | ⟨_, _, _, _, e⟩ | ⟨_, _, _, _, e⟩ |
    ⟨_, _, _, _, e⟩ <;>
  · rw [e] at h
    cases h
    simp

/-- The class of a byte, from the row it decodes to (R71). -/
theorem classify_term (b : Byte) : classify b = .term ↔ b = Ascii.semi := by
  unfold classify
  split
  · simp_all
  · split <;> simp_all

theorem classify_noise (b : Byte) : classify b = .noise ↔ b = Ascii.lf ∨ b = Ascii.cr ∨ b = Ascii.nul := by
  unfold classify
  split
  · rename_i h
    subst h
    decide
  · split <;> simp_all

end Sys2Proof.Machine
end

