-- ==== Sys2Proof/Laws/Sink.lean ====
section
/-! SUPPORT. What SNAP's loops, DRAIN's masks and READ do, said once (43_event_sink.md R190 to R196). -/

namespace Sys2Proof.Machine

variable {n : Nat}

/-- Bit `i` of a drain mask is channel `i`'s flag (R194). -/
theorem chgMask_bit {w : Nat} (v : Vector (Chan w) n) (i : Nat) (h : i < n) : (chgMask v).getLsbD i = v[i].chg := by
  simp [chgMask, h]

/-- Clearing leaves `cur` and `prev` (R194). -/
theorem clearChg_get {w : Nat} (v : Vector (Chan w) n) (i : Nat) (h : i < n) :
    (clearChg v)[i] = { v[i] with chg := false } := by
  simp [clearChg]

/-- A channel after DRAIN (R194). -/
theorem drain_chan (s : Block n) (k : Kind) (i : Fin n) :
    (drainBlock s).1.chan k i = { s.chan k i with chg := false } := by
  cases k <;> simp [drainBlock, Block.chan, clearChg]

/-- An index is in the list of a mask's set bits when its bit is 1 (R195). -/
theorem mem_maskIndices (m : BitVec n) (i : Nat) : i ∈ maskIndices m ↔ i < n ∧ m.getLsbD i = true := by
  simp [maskIndices]

/-- One pass of SNAP's loop for a channel that exists (R190). -/
theorem snapChan_inside (p : Params) (k : Kind) (v : Int) (i : Nat) (x : Block p.nCh × BitVec 4) (h : i < p.nCh) :
    snapChan p k v i x = ((differUpdate k ⟨i, h⟩ (norm k v) x.1).1,
      setMaskBit x.2 i (differUpdate k ⟨i, h⟩ (norm k v) x.1).2) := by
  simp [snapChan, h]

/-- One pass of SNAP's loop for a channel that does not exist (R190: "skipped"). -/
theorem snapChan_outside (p : Params) (k : Kind) (v : Int) (i : Nat) (x : Block p.nCh × BitVec 4) (h : p.nCh ≤ i) :
    snapChan p k v i x = x := by
  have : ¬ i < p.nCh := by omega
  simp [snapChan, this]

/-- SNAP's loop writes channels only. -/
theorem snapBank_keeps (p : Params) (k : Kind) (f : Nat → Int) (m : Nat) (s : Block p.nCh) :
    (snapBank p k f m s).1.rxState = s.rxState ∧ (snapBank p k f m s).1.rxLen = s.rxLen ∧
    (snapBank p k f m s).1.msgReady = s.msgReady ∧ (snapBank p k f m s).1.fb = s.fb ∧
    SameErrors s (snapBank p k f m s).1 := by
  induction m with
  | zero => simp [snapBank, SameErrors]
  | succ m ih =>
    rw [snapBank]
    by_cases h : m < p.nCh
    · rw [snapChan_inside p k _ m _ h]
      have he := differUpdate_errors (snapBank p k f m s).1 k ⟨m, h⟩ (norm k (f m))
      obtain ⟨h1, h2, h3, h4, h5⟩ := ih
      refine ⟨by simp [h1], by simp [h2], by simp [h3], by simp [h4], ?_⟩
      unfold SameErrors at *
      simp_all
    · rw [snapChan_outside p k _ m _ (by omega)]
      exact ih

/-- Setting a mask bit that is 0 (R190). -/
theorem setMaskBit_bit (m : BitVec 4) (i j : Nat) (c : Bool) (hi : i < 4) (hj : j < 4) (h : m.getLsbD i = false) :
    (setMaskBit m i c).getLsbD j = if j = i then c else m.getLsbD j := by
  unfold setMaskBit
  cases c
  · by_cases e : j = i
    · subst e; simp [h]
    · simp [e]
  · simp only [if_true, BitVec.getLsbD_or, BitVec.getLsbD_shiftLeft]
    by_cases e : j = i
    · subst e; simp; omega
    · simp only [e, if_false]
      by_cases h2 : j < i
      · simp [h2]
      · have : ¬ j - i = 0 := by omega
        simp [h2, this]

/-- SNAP's loop over the first `m` channels of a bank: those channels go through the differ and their mask bits say
which differed; nothing else of the table changes (R190). -/
theorem snapBank_spec (p : Params) (k) (f : Nat → Int) (m : Nat) (hm : m ≤ 4) (s : Block p.nCh) :
    (∀ k' (i : Fin p.nCh), (snapBank p k f m s).1.chan k' i = if h : k' = k ∧
        i.val < m then (s.chan k' i).updated (h.1 ▸ norm k (f i.val)) else s.chan k' i) ∧
    (∀ j < 4, (snapBank p k f m s).2.getLsbD j = (if h : j < m ∧
        j < p.nCh then decide (norm k (f j) ≠ (s.chan k ⟨j, h.2⟩).cur) else false)) := by
  induction m with
  | zero => simp [snapBank]
  | succ m ih =>
    obtain ⟨ih1, ih2⟩ := ih (by omega)
    rw [snapBank]
    by_cases h : m < p.nCh
    · rw [snapChan_inside p k _ m _ h]
      have hc : (snapBank p k f m s).1.chan k ⟨m, h⟩ = s.chan k ⟨m, h⟩ := by rw [ih1]; simp
      refine ⟨?_, ?_⟩
      · intro k' i
        by_cases e : k' = k ∧ i = ⟨m, h⟩
        · obtain ⟨rfl, rfl⟩ := e
          simp only [differUpdate_chan_same, hc]
          simp
        · simp only []
          rw [differUpdate_other _ _ _ _ _ _ e, ih1]
          have : (k' = k ∧ i.val < m + 1) ↔ (k' = k ∧ i.val < m) := by
            constructor
            · rintro ⟨rfl, h2⟩
              refine ⟨rfl, ?_⟩
              by_contra h3
              exact e ⟨rfl, Fin.ext (by simp; omega)⟩
            · rintro ⟨rfl, h2⟩; exact ⟨rfl, by omega⟩
          simp only [this]
      · intro j hj
        simp only []
        rw [setMaskBit_bit _ _ _ _ (by omega) hj (by rw [ih2 _ (by omega)]; simp)]
        rw [differUpdate_changed, hc, ih2 _ hj]
        by_cases e : j = m
        · subst e; simp [h]
        · have : (j < m + 1 ∧ j < p.nCh) ↔ (j < m ∧ j < p.nCh) := by omega
          simp only [e, if_false, this]
    · rw [snapChan_outside p k _ m _ (by omega)]
      refine ⟨?_, ?_⟩
      · intro k' i
        rw [ih1]
        have : (k' = k ∧ i.val < m + 1) ↔ (k' = k ∧ i.val < m) := by
          have := i.isLt
          constructor <;> rintro ⟨a, b⟩ <;> exact ⟨a, by omega⟩
        simp only [this]
      · intro j hj
        rw [ih2 _ hj]
        have : (j < m + 1 ∧ j < p.nCh) ↔ (j < m ∧ j < p.nCh) := by omega
        simp only [this]

end Sys2Proof.Machine
end

