-- ==== Sys2Proof/Laws/Invariant.lean ====
section
/-! SUPPORT. What each shared operation does to the invariant of the receiver (10_state.md R27), said once, and that the
parser completes under it. -/

namespace Sys2Proof.Machine

/-- A block with the same receiver and frame buffer, no new frame held and a legal error code keeps the invariant. -/
theorem inv_of_same {n} {s t : Block n} (h : s.Inv) (h1 : t.rxState = s.rxState) (h2 : t.rxLen = s.rxLen)
    (h3 : t.msgReady = true → s.msgReady = true) (h4 : t.fb = s.fb) (h5 : t.errLast.toNat ≤ 5) : t.Inv := by
  obtain ⟨a, b, c, d, e⟩ := h
  constructor
  · rw [h1, h2]; exact a
  · rw [h1, h2, h4]; intro h; obtain ⟨x, y, z⟩ := b h; refine ⟨x, ?_, z⟩
    cases hm : t.msgReady with
    | false => rfl
    | true => rw [h3 hm] at y; cases y
  · rw [h1, h2, h4]; intro hm; exact c (h3 hm)
  · exact h5
  · rw [h4]; exact e

/-- The receiver keeps the invariant (R27). -/
theorem receive_keeps_inv {n} (b : Byte) (s : Block n) (x) (h : s.Inv) (hx : receive b s = .ok x) : x.1.Inv := by
  unfold receive at hx
  rcases receiveAs_cases (classify b) b s with ⟨_, e⟩ | ⟨_, _, e⟩ | ⟨_, _, _, e⟩ | ⟨hm, hl, hs, hc, e⟩ |
      ⟨hm, hl, hs, hc, e⟩ | ⟨hm, hl, hs, hc, e⟩ <;> rw [e] at hx <;> cases hx
  · exact h
  · constructor <;> simp_all [h.fbWf]
    decide
  · exact h
  · obtain ⟨a, b', c, d, e⟩ := h
    constructor
    · simp
    · intro _; refine ⟨by simp, hm, ?_⟩
      intro j hj
      have : j = 0 := by simpa using hj
      subst this
      show classify (Memory.read (Memory.write _ _ _) _) = _
      rw [read_write_same _ e]; exact hc
    · simp [hm]
    · exact d
    · exact write_keeps_wf _ e _ (by decide) _
  · obtain ⟨a, b', c, d, e⟩ := h
    obtain ⟨p, q, r⟩ := b' hs
    have hlen : (s.rxLen + 1).toNat = s.rxLen.toNat + 1 := by
      rw [BitVec.toNat_add]; simp; omega
    constructor
    · simp [hs]
    · intro _; refine ⟨by show 1 ≤ (s.rxLen + 1).toNat; omega, hm, ?_⟩
      intro j hj
      have hj : j < (s.rxLen + 1).toNat := hj
      rw [hlen] at hj
      by_cases hj' : j = s.rxLen.toNat
      · subst hj'; show classify (Memory.read (Memory.write _ _ _) _) = _; rw [read_write_same _ e]; exact hc
      · show classify (Memory.read (Memory.write _ _ _) _) = _; rw [read_write_other _ _ _ _ hj']; exact r j (by omega)
    · simp [hm]
    · exact d
    · exact write_keeps_wf _ e _ (by show _ < 32; omega) _
  · obtain ⟨a, b', c, d, e⟩ := h
    obtain ⟨p, q, r⟩ := b' hs
    have w1 := write_keeps_wf _ e s.rxLen.toNat (by show _ < 32; omega) Ascii.semi
    constructor
    · simp
    · simp
    · intro _
      refine ⟨rfl, rfl, s.rxLen.toNat, hl, p, ?_, ?_, ?_⟩
      · intro j hj
        show classify (Memory.read (Memory.write _ _ _) _) = _
        rw [read_write_other _ _ _ _ (by omega), read_write_other _ _ _ _ (by omega)]
        exact r j hj
      · show Memory.read (Memory.write _ _ _) _ = _; rw [read_write_other _ _ _ _ (by omega), read_write_same _ e]
      · show Memory.read (Memory.write _ _ _) _ = _; rw [read_write_same _ w1]
    · exact d
    · exact write_keeps_wf _ w1 _ (by show _ < 32; omega) _

/-- Applying a message writes channels and errors only (R166). -/
theorem applyMsg_keeps (p : Params) (k ch v) (s : Block p.nCh) : (applyMsg p k ch v s).1.rxState = s.rxState ∧
    (applyMsg p k ch v s).1.rxLen = s.rxLen ∧ (applyMsg p k ch v s).1.msgReady = s.msgReady ∧
    (applyMsg p k ch v s).1.fb = s.fb ∧
    ((applyMsg p k ch v s).1.errLast = s.errLast ∨ (applyMsg p k ch v s).1.errLast = 4) := by
  unfold applyMsg
  split <;> simp [ErrorKind.code]

/-- The parser keeps the invariant, holds no frame afterwards and leaves the receiver and the buffer (R167). -/
theorem parseWith_keeps_inv (p : Params) (dec) (s : Block p.nCh) (x) (h : s.Inv) (hx : parseWith p dec s = .ok x) :
    x.1.Inv ∧ x.1.msgReady = false ∧ x.1.rxState = s.rxState ∧ x.1.rxLen = s.rxLen ∧ x.1.fb = s.fb := by
  cases hm : s.msgReady with
  | false => rw [parseWith_idle _ _ _ hm] at hx; cases hx; exact ⟨h, hm, rfl, rfl, rfl⟩
  | true =>
    obtain ⟨f, hf⟩ := inv_heldFrame s h hm
    rw [parseWith_held _ _ _ _ hm hf] at hx
    split at hx <;> cases hx
    · exact ⟨inv_of_same h (by simp) (by simp) (by simp) (by simp) (by simp [ErrorKind.code]), by simp⟩
    · exact ⟨inv_of_same h (by simp) (by simp) (by simp) (by simp) (by simp [ErrorKind.code]), by simp⟩
    · rename_i k ch v _
      obtain ⟨a, b, c, d, e⟩ := applyMsg_keeps p k ch v { s with msgReady := false }
      refine ⟨inv_of_same h a b (by rw [c]; simp) d ?_, c, a, b, d⟩
      rcases e with e | e <;> rw [e]
      · exact h.errCode
      · decide

/-- POLL keeps the invariant and holds no frame afterwards (R170). -/
theorem pollBlock_keeps_inv (p : Params) (b) (s : Block p.nCh) (x) (h : s.Inv) (hx : pollBlock p b s = .ok x) :
    x.1.Inv ∧ x.1.msgReady = false := by
  unfold pollBlock at hx
  cases b with
  | some b =>
    simp only at hx
    cases hr : receive b s with
    | error => rw [hr] at hx; cases hx
    | ok y =>
      rw [hr] at hx
      obtain ⟨s1, r⟩ := y
      have h1 := receive_keeps_inv b s _ h hr
      simp only at hx
      cases hp : parseFrame p s1 with
      | error => rw [hp] at hx; cases hx
      | ok z =>
        rw [hp] at hx; cases hx
        have := parseWith_keeps_inv p _ s1 z h1 hp
        exact ⟨this.1, this.2.1⟩
  | none =>
    simp only at hx
    cases hp : parseFrame p s with
    | error => rw [hp] at hx; cases hx
    | ok z =>
      rw [hp] at hx; cases hx
      have := parseWith_keeps_inv p _ s z h hp
      exact ⟨this.1, this.2.1⟩

/-- A differ update keeps the invariant. -/
theorem differUpdate_keeps_inv {n} (k) (i : Fin n) (u) (s : Block n) (h : s.Inv) : (differUpdate k i u s).1.Inv :=
  inv_of_same h (by simp) (by simp) (by simp) (by simp) (by simpa using h.errCode)

/-- SNAP keeps the invariant. -/
theorem snapBlock_keeps_inv (p : Params) (n r) (s : Block p.nCh) (x) (h : s.Inv) (hx : snapBlock p n r s = .ok x) :
    x.1.Inv := by
    unfold snapBlock at hx
    split at hx
    · cases hx
    split at hx
    · cases hx; exact inv_of_same h (by simp) (by simp) (by simp) (by simp) (by simp [ErrorKind.code])
    · injection hx with hx
      subst hx
      have a := snapBank_keeps p .encoder (replyEnc p r) Config.busChannels s
      generalize snapBank p .encoder (replyEnc p r) Config.busChannels s = y at *
      have b := snapBank_keeps p .button (replyBtn r) Config.busChannels y.1
      generalize snapBank p .button (replyBtn r) Config.busChannels y.1 = z at *
      refine inv_of_same h (b.1.trans a.1) (b.2.1.trans a.2.1) (by rw [b.2.2.1, a.2.2.1]; exact id)
          (b.2.2.2.1.trans a.2.2.2.1) ?_
      rw [b.2.2.2.2.2.2.2.2.2, a.2.2.2.2.2.2.2.2.2]; exact h.errCode

/-- The parser completes under the invariant (R28, R160). -/
theorem parseWith_completes (p : Params) (dec) (s : Block p.nCh) (h : s.Inv) : ∃ x, parseWith p dec s = .ok x := by
  cases hm : s.msgReady with
  | false => exact ⟨_, parseWith_idle _ _ _ hm⟩
  | true =>
    obtain ⟨f, hf⟩ := inv_heldFrame s h hm
    rw [parseWith_held _ _ _ _ hm hf]
    cases dec f <;> exact ⟨_, rfl⟩

end Sys2Proof.Machine
end

