-- ==== Sys2Proof/Laws/PerInstr.lean ====
section
/-! SUPPORT. The family RowMatch, one lemma per constructor of `Instr`: the code of an instruction has its row's format,
and a command word matches its row's match and mask (30_encoding.md R89, R90). -/

namespace Sys2Proof.Laws.RowMatch

/-- Whether a code is in the format and row given. -/
def inRow : Code → Option CmdRow → Bool
  | .cmd w, some r => r.matches w
  | .serial _, none => true
  | .kind _, none => true
  | _, _ => false

/-- The encoder's code is in the instruction's own row of the opcode table. -/
def Statement (i : Instr) : Prop := inRow (encode i) i.cmdRow = true

/-- A word whose fields stand at the bit positions of R88 matches a row when it does so bit by bit. -/
theorem matches_of_bits (f : CmdFields) (r : CmdRow)
    (h : ∀ j < 32, (f.toWord.getLsbD j && r.mask.getLsbD j) = r.value.getLsbD j) : r.matches f.toWord = true := by
  simp only [CmdRow.matches, decide_eq_true_eq]
  apply BitVec.eq_of_getLsbD_eq
  intro j hj
  rw [BitVec.getLsbD_and]
  exact h j hj

theorem nop : Statement .nop := by unfold Statement; decide

theorem rxb (b : Byte) : Statement (.rxb b) := by
  refine matches_of_bits _ _ fun j hj => ?_
  rw [concat_getLsbD, imm_byte_bit]
  interval_cases j <;> simp

theorem parse : Statement .parse := by unfold Statement; decide

theorem poll (b : Byte) : Statement (.poll b) := by
  refine matches_of_bits _ _ fun j hj => ?_
  rw [concat_getLsbD, imm_byte_bit]
  interval_cases j <;> simp

theorem pollNb : Statement .pollNb := by unfold Statement; decide

theorem apply (k : Kind) (idx : BitVec 8) (imm : BitVec 16) : Statement (.apply k idx imm) := by
  refine matches_of_bits _ _ fun j hj => ?_
  rw [concat_getLsbD]
  interval_cases j <;> simp

theorem diff (k : Kind) (idx : BitVec 8) (imm : BitVec 16) : Statement (.diff k idx imm) := by
  refine matches_of_bits _ _ fun j hj => ?_
  rw [concat_getLsbD]
  interval_cases j <;> simp

theorem snap (n : BitVec 4) : Statement (.snap n) := by
  refine matches_of_bits _ _ fun j hj => ?_
  rw [concat_getLsbD, imm_nibble_bit]
  interval_cases j <;> simp

theorem drain : Statement .drain := by unfold Statement; decide

theorem read (k : Kind) (idx : BitVec 8) : Statement (.read k idx) := by
  refine matches_of_bits _ _ fun j hj => ?_
  rw [concat_getLsbD]
  interval_cases j <;> simp

theorem rdstat : Statement .rdstat := by unfold Statement; decide

theorem reservedAB (low : BitVec 29) : Statement (.reservedAB low) := by
  simp only [Statement, inRow, encode, Instr.cmdRow, CmdRow.matches, decide_eq_true_eq]
  apply BitVec.eq_of_getLsbD_eq
  intro j hj
  rw [BitVec.getLsbD_and, BitVec.getLsbD_append]
  interval_cases j <;> simp

theorem reservedCF (low : BitVec 30) : Statement (.reservedCF low) := by
  simp only [Statement, inRow, encode, Instr.cmdRow, CmdRow.matches, decide_eq_true_eq]
  apply BitVec.eq_of_getLsbD_eq
  intro j hj
  rw [BitVec.getLsbD_and, BitVec.getLsbD_append]
  interval_cases j <;> simp

theorem term : Statement .term := rfl

theorem noiseNul : Statement .noiseNul := rfl

theorem noiseLf : Statement .noiseLf := rfl

theorem noiseCr : Statement .noiseCr := rfl

theorem ord (b : Byte) : Statement (.ord b) := rfl

theorem encoderUpdate : Statement .encoderUpdate := rfl

theorem buttonUpdate : Statement .buttonUpdate := rfl

theorem unknownKind (b : Byte) : Statement (.unknownKind b) := rfl

end Sys2Proof.Laws.RowMatch
end

