-- ==== Sys2Proof/Laws/Step.lean ====
section
/-! SUPPORT. What an instruction and a step can do, said once (30_encoding.md R82, R83; 70_reset_and_hazards.md R270), how
this hardware and the machine for any parameters go together (00_scope.md R5), and how a run unfolds
(70_reset_and_hazards.md R285). -/

namespace Sys2Proof.Machine

/-- Every instruction is its operation on the block, completed (R8): no other field of the state is written but `resp`. -/
theorem exec_blockOp (i : Instr) (s : State) : exec i s = complete s (blockOp Config.isc i s.snapData s.block) := by
  cases i <;> rfl

/-- What an instruction leaves when it answers a next state. -/
theorem exec_next {i : Instr} {s t : State} (h : exec i s = .next t) :
    ∃ x, blockOp Config.isc i s.snapData s.block = .ok x ∧ t = { s with block := x.1, resp := x.2 } :=
  complete_next (by rw [← exec_blockOp]; exact h)

/-- No operation touches the inputs that the block has not taken (R61: "none left by later ones"). -/
theorem exec_keeps_ports {i : Instr} {s t : State} (h : exec i s = .next t) :
    t.snapData = s.snapData ∧ t.inputs = s.inputs := by
  obtain ⟨x, -, rfl⟩ := exec_next h
  exact ⟨rfl, rfl⟩

/-- A step that answers a next state found no input, took an input without a command, took a reset, or ran the
operation that the command word decodes to. -/
theorem step_cases {s t : State} (h : step s = .next t) :
    (s.inputs = [] ∧ t = s) ∨
    ∃ x rest, s.inputs = x :: rest ∧
      ((x.rst = false ∧ x.cmd = none ∧ t = { s with inputs := rest, snapData := x.snapData }) ∨
       (x.rst = true ∧ x.cmd = none ∧ t = applyReset { s with inputs := rest, snapData := x.snapData }) ∨
       ∃ w i, x.rst = false ∧ x.cmd = some w ∧ decodeCmd w = .ok i ∧
         exec i { s with inputs := rest, snapData := x.snapData } = .next t) := by
  obtain ⟨block, snapData, inputs, resp⟩ := s
  cases inputs with
  | nil => exact .inl ⟨rfl, by simpa [step, takeInput] using h.symm⟩
  | cons x rest =>
    refine .inr ⟨x, rest, rfl, ?_⟩
    obtain ⟨rst, cmd, data⟩ := x
    simp only [step, takeInput, runInput, runInputBy] at h
    cases rst <;> cases cmd with
    | none => simp_all [eq_comm]
    | some w =>
      simp only [runCmdBy, if_true, reduceCtorEq] at h
      try
        cases hd : decodeCmd w with
        | ok i => exact .inr (.inr ⟨w, i, rfl, rfl, hd, by simpa [hd] using h⟩)
        | error e => simp [hd] at h

/-- Placing a 32-bit word changes nothing but the inputs. -/
theorem withFetchWord_word (s : State) (w : Nat) :
    s.withFetchWord 32 w = { s with inputs := PortInput.ofWord (BitVec.ofNat 32 w) s.snapData :: s.inputs } := rfl

/-- A placed word is what the next step runs, on the state as it was. -/
theorem step_withFetchWord (s : State) (w : Nat) : step (s.withFetchWord 32 w) = runCmd (BitVec.ofNat 32 w) s := rfl

/-! ### The machine for any parameters -/

@[simp] theorem toStateOf_block (s : State) : s.toStateOf.block = s.block := rfl
@[simp] theorem toStateOf_snapData (s : State) : s.toStateOf.snapData = s.snapData := rfl
@[simp] theorem toStateOf_inputs (s : State) : s.toStateOf.inputs = s.inputs := rfl
@[simp] theorem toStateOf_resp (s : State) : s.toStateOf.resp = s.resp := rfl

/-! ### Runs -/

variable {σ ρ : Type} {st : σ → Host.Outcome σ Fault Refusal} {out : σ → σ → List ρ}

@[simp] theorem runSteps_zero (s : σ) : runSteps st out 0 s = { outputs := [], ending := .next s } := rfl

theorem runSteps_next {k : Nat} {s t : σ} (h : st s = .next t) :
    runSteps st out (k + 1) s =
      { outputs := out s t ++ (runSteps st out k t).outputs, ending := (runSteps st out k t).ending } := by
  simp [runSteps, h]

/-- A run that reaches a next state goes on from there. -/
theorem runSteps_add {k m : Nat} {s t : σ} (h : (runSteps st out k s).ending = .next t) :
    runSteps st out (k + m) s =
      { outputs := (runSteps st out k s).outputs ++ (runSteps st out m t).outputs
        ending := (runSteps st out m t).ending } := by
  induction k generalizing s with
  | zero =>
    have hs : s = t := by simpa using h
    subst hs
    simp
  | succ k ih =>
    cases hst : st s with
    | next u =>
      rw [runSteps_next hst] at h
      rw [show k + 1 + m = k + m + 1 by omega, runSteps_next hst, runSteps_next hst, ih h]
      simp
    | fault f => simp [runSteps, hst] at h
    | refused q => simp [runSteps, hst] at h

end Sys2Proof.Machine
end

