-- ==== Sys2Proof/Tests/Slice0.lean ====
section
/-! SUPPORT. The model's own tests. Expected results are those of spec/95_test_vectors.md (cited by their number there),
of the tables of spec/30_encoding.md, or worked out by hand from the rule cited. -/

namespace Sys2Proof.Tests

open Sys2Proof Sys2Proof.Machine

/-! ### Helpers -/

/-- The bytes of a text of ASCII characters. -/
def bytes (t : String) : List Byte := t.toList.map (fun c => BitVec.ofNat 8 c.toNat)

/-- Frame buffer cells that hold some bytes from index 0, in canonical form. -/
def cells (bs : List Byte) : Memory := (bs.zipIdx.map (fun x => (x.2, x.1))).filter (fun c => c.2 ≠ 0)

/-- `S0` of 95_test_vectors.md: the state after reset. -/
abbrev s0 : State := State.reset

/-- After `FEED` of some ordinary bytes from `S0`: `Receiving` with the bytes stored. -/
def receiving (bs : List Byte) : State :=
  { s0 with block := { s0.block with rxState := .receiving, rxLen := BitVec.ofNat 5 bs.length, fb := cells bs } }

/-- After `FEED` of a whole frame from `S0`: the frame held. -/
def holding (f : List Byte) : State :=
  { s0 with block := { s0.block with msgReady := true, fb := cells f } }

/-- `S0` with an encoder channel and a frame buffer cell that hold something. -/
def used : State :=
  { s0 with block := { s0.block with fb := [(0, 0x65#8)], enc := s0.block.enc.set 0 ⟨10, 0, true⟩ } }

/-- The step that takes a command word. -/
def runWord (w : Nat) (s : State) : Host.Outcome State Fault Refusal := step (s.withFetchWord 32 w)

/-- The outcome is a next state of which `p` holds. -/
def next (o : Host.Outcome State Fault Refusal) (p : State → Bool) : Bool :=
  match o with
  | .next t => p t
  | .fault _ => false
  | .refused _ => false

/-- The outcome is this fault. -/
def faults (o : Host.Outcome State Fault Refusal) (f : Fault) : Bool :=
  match o with
  | .fault g => decide (g = f)
  | .next _ => false
  | .refused _ => false

/-- The outcome is this refusal. -/
def refuses (o : Host.Outcome State Fault Refusal) (r : Refusal) : Bool :=
  match o with
  | .refused q => decide (q = r)
  | .next _ => false
  | .fault _ => false

/-- The word decodes to this operation. -/
def decodesTo (w : CmdWord) (i : Instr) : Bool :=
  match decodeCmd w with
  | .ok j => decide (j = i)
  | .error _ => false

/-- The word is rejected with this error. -/
def rejects (w : CmdWord) (e : DecodeError) : Bool :=
  match decodeCmd w with
  | .ok _ => false
  | .error d => decide (d = e)

/-! ### WellFormed: every check refuses an ill-formed term -/

theorem test_wf_snap_ten : Instr.wf (.snap 10) = false := by decide
theorem test_wf_snap_nine : Instr.wf (.snap 9) = true := by decide
theorem test_wf_ord_terminator : Instr.wf (.ord 0x3B#8) = false := by decide
theorem test_wf_ord_nul : Instr.wf (.ord 0x00#8) = false := by decide
theorem test_wf_ord_lf : Instr.wf (.ord 0x0A#8) = false := by decide
theorem test_wf_ord_cr : Instr.wf (.ord 0x0D#8) = false := by decide
theorem test_wf_unknown_e : Instr.wf (.unknownKind 0x65#8) = false := by decide
theorem test_wf_unknown_b : Instr.wf (.unknownKind 0x62#8) = false := by decide

/-! ### Decoding: words written out from the fields of R88 and the rows of R89 (95_test_vectors.md 2.1) -/

-- OP = 0000, every other field 0.
theorem test_decode_nop : decodesTo 0b0000_0_0_00_00000000_00000000_00000000#32 .nop = true := by decide
-- OP = 0001, IMM[7:0] = 'e' = 0x65.
theorem test_decode_rxb : decodesTo 0b0001_0_0_00_00000000_00000000_01100101#32 (.rxb 0x65#8) = true := by decide
-- OP = 0010.
theorem test_decode_parse : decodesTo 0b0010_0_0_00_00000000_00000000_00000000#32 .parse = true := by decide
-- OP = 0011, V = 1, IMM[7:0] = 'e'.
theorem test_decode_poll : decodesTo 0b0011_0_1_00_00000000_00000000_01100101#32 (.poll 0x65#8) = true := by decide
-- OP = 0011, V = 0.
theorem test_decode_pollNb : decodesTo 0b0011_0_0_00_00000000_00000000_00000000#32 .pollNb = true := by decide
-- OP = 0100, K = 0, IDX = 2, IMM = 45.
theorem test_decode_apply :
    decodesTo 0b0100_0_0_00_00000010_00000000_00101101#32 (.apply .encoder 2 45) = true := by decide
-- OP = 0101, K = 1, IDX = 3, IMM = -2.
theorem test_decode_diff :
    decodesTo 0b0101_1_0_00_00000011_11111111_11111110#32 (.diff .button 3 (-2)) = true := by decide
-- OP = 0110, n = 9.
theorem test_decode_snap : decodesTo 0b0110_0_0_00_00000000_00000000_00001001#32 (.snap 9) = true := by decide
-- OP = 0111.
theorem test_decode_drain : decodesTo 0b0111_0_0_00_00000000_00000000_00000000#32 .drain = true := by decide
-- OP = 1000, K = 1, IDX = 2.
theorem test_decode_read :
    decodesTo 0b1000_1_0_00_00000010_00000000_00000000#32 (.read .button 2) = true := by decide
-- OP = 1001.
theorem test_decode_rdstat : decodesTo 0b1001_0_0_00_00000000_00000000_00000000#32 .rdstat = true := by decide
-- OP = 0xA and 0xB: bits 31:29 = 101.
theorem test_decode_reservedAB :
    decodesTo 0xA0000000#32 (.reservedAB 0) && decodesTo 0xBFFFFFFF#32 (.reservedAB 0x1FFFFFFF) = true := by decide
-- OP = 0xC to 0xF: bits 31:30 = 11.
theorem test_decode_reservedCF :
    decodesTo 0xC0000000#32 (.reservedCF 0) && decodesTo 0xFFFFFFFF#32 (.reservedCF 0x3FFFFFFF) = true := by decide
-- R71: ';' = 0x3B, '\0' = 0x00, '\n' = 0x0A, '\r' = 0x0D, every other byte ORD.
theorem test_decode_serial :
    [0x3B#8, 0x00#8, 0x0A#8, 0x0D#8, 0xFF#8].map decodeSerial =
      [.term, .noiseNul, .noiseLf, .noiseCr, .ord 0xFF#8] := by decide
-- R74: 'e' = 0x65, 'b' = 0x62, every other byte unknown, upper case too.
theorem test_decode_kind :
    [0x65#8, 0x62#8, 0x45#8].map decodeKind = [.encoderUpdate, .buttonUpdate, .unknownKind 0x45#8] := by decide

/-- The words that 95_test_vectors.md 2.1 lists as a fault for an unused field. -/
theorem test_reject_unused_fields :
    [0x00000001#32, 0x10000100#32, 0x11000065#32, 0x18000065#32, 0x20000001#32, 0x30000065#32, 0x34000100#32,
      0x44000000#32, 0x41000000#32, 0x42000000#32, 0x60000010#32, 0x70000001#32, 0x80000001#32,
      0x90000001#32].all (fun w => rejects w .unusedField) = true := by decide

/-- 95_test_vectors.md 2.1: `n` above 9. -/
theorem test_reject_snap_length :
    rejects 0x6000000A#32 .snapLengthOver9 && rejects 0x6000000F#32 .snapLengthOver9 = true := by decide

/-! ### Encoding: the same words from the other side -/

theorem test_encode_words :
    [Instr.nop, .rxb 0x65#8, .parse, .poll 0x65#8, .pollNb, .apply .encoder 2 45, .diff .button 3 (-2), .snap 9,
      .drain, .read .button 2, .rdstat].map encode =
    [.cmd 0x00000000#32, .cmd 0x10000065#32, .cmd 0x20000000#32, .cmd 0x34000065#32, .cmd 0x30000000#32,
      .cmd 0x4002002D#32, .cmd 0x5803FFFE#32, .cmd 0x60000009#32, .cmd 0x70000000#32, .cmd 0x88020000#32,
      .cmd 0x90000000#32] := by decide

/-- R93, R94: `SENDMSG e, 2, 45` is `SEND "e2:45;"`. -/
theorem test_sendMsg_text : sendMsg .encoder 2 45 = (bytes "e2:45;").map .poll := by decide
-- R94 on a negative channel: the text is the frame of Q9.
theorem test_sendMsg_negative_channel : sendMsg .encoder (-1) 5 = (bytes "e-1:5;").map .poll := by decide
theorem test_sendMsg_negative : messageText .button 10 (-20) = bytes "b10:-20;" := by decide

/-- R93: `APPLY e, 2, 45` and `POLL '\n'`. -/
theorem test_asm_apply : asm 0 (.apply .encoder 2 45) = some "APPLY e, 2, 45".toList := by decide
theorem test_asm_poll_lf : asm 0 (.poll 0x0A#8) = some "POLL '\\n'".toList := by decide

/-! ### The table's numbering -/

theorem test_table_word : decodeTableWord 32 0x4002002D = some (.apply .encoder 2 45) := by decide
theorem test_table_bytes :
    [0x3B, 0x00, 0x0A, 0x0D, 0x61, 0x65, 0x62].map (decodeTableWord 8) =
      [some .term, some .noiseNul, some .noiseLf, some .noiseCr, some (.ord 0x61#8), some .encoderUpdate,
        some .buttonUpdate] := by decide

/-- A serial byte is taken by the next step. -/
theorem test_fetch_serial : next (step (s0.withFetchWord 8 0x61)) (fun t => t.block.fb = [(0, 0x61#8)]) = true := by
  decide
/-- A kind byte is dispatched by the next step. -/
theorem test_fetch_kind :
    next (step (s0.withFetchWord 8 0x62)) (fun t => t.resp = .parse ⟨.applied, .button, 0, 0, false⟩) = true := by
  decide

/-! ### NOP and RDSTAT (2.10) -/

-- N1.
theorem test_nop : next (runWord 0x00000000 used) (fun t => t.block = used.block ∧ t.resp = .none) = true := by decide
-- ST2.
theorem test_rdstat_receiving : next (runWord 0x90000000 (receiving (bytes "e2:4")))
    (fun t => t.resp = .rdstat ⟨.receiving, 4, false, 0, 0, 0, 0, 0, 0, false⟩) = true := by decide
-- ST3.
theorem test_rdstat_held : next (runWord 0x90000000 (holding (bytes "e2:45;")))
    (fun t => t.resp = .rdstat ⟨.idle, 0, true, 0, 0, 0, 0, 0, 0, false⟩) = true := by decide
-- R37: the level outputs in ST2 and ST3, and with one changed channel.
theorem test_levels : ((receiving (bytes "e2:4")).block.rxBusyO && (holding (bytes "e2:45;")).block.msgReadyO
    && used.block.anyChangedO && !s0.block.anyChangedO) = true := by decide

/-! ### RXB and the serial bytes (2.2) -/

-- X1.
theorem test_rxb_first : next (runWord 0x10000065 s0) (fun t => t.block = (receiving (bytes "e")).block ∧
    t.resp = .rxb ⟨true, false, false⟩) = true := by decide
-- X10: the terminator overflows a full frame too.
theorem test_rxb_overflow : next (runWord 0x1000003B (receiving (List.replicate 31 0x61#8)))
    (fun t => t.block.rxState = .idle ∧ t.block.rxLen = 0 ∧ t.block.errLast = 1 ∧ t.block.cntOvf = 1 ∧
      t.block.msgReady = false ∧ t.resp = .rxb ⟨true, false, true⟩) = true := by decide
-- X8: the longest frame; its NUL goes to FB[31].
theorem test_term_longest : next (exec .term { receiving (List.replicate 30 0x61#8) with
      block.fb := cells (List.replicate 32 0x61#8) })
    (fun t => t.block.fb.read 29 = 0x61#8 ∧ t.block.fb.read 30 = 0x3B#8 ∧ t.block.fb.read 31 = 0x00#8 ∧
      t.block.msgReady = true ∧ t.resp = .rxb ⟨true, true, false⟩) = true := by decide
-- X2.
theorem test_term_idle : next (exec .term s0) (fun t => t.block = s0.block ∧ t.resp = .rxb ⟨true, false, false⟩) = true := by
  decide
-- X3.
theorem test_noiseNul_idle : next (exec .noiseNul s0) (fun t => t.block = s0.block) = true := by decide
-- X11.
theorem test_noiseLf_overflow : next (exec .noiseLf (receiving (List.replicate 31 0x61#8)))
    (fun t => t.resp = .rxb ⟨true, false, true⟩) = true := by decide
-- X5.
theorem test_noiseCr_receiving : next (exec .noiseCr (receiving (bytes "e")))
    (fun t => t.block = (receiving (bytes "e")).block) = true := by decide
-- X4.
theorem test_ord_high : next (exec (.ord 0xFF#8) s0) (fun t => t.block = (receiving [0xFF#8]).block) = true := by decide
-- X7.
theorem test_ord_held : next (exec (.ord 0x62#8) (holding (bytes "e2:45;")))
    (fun t => t.block = (holding (bytes "e2:45;")).block ∧ t.resp = .rxb ⟨false, false, false⟩) = true := by decide

/-! ### PARSE, the kind bytes and POLL (2.3, 2.4) -/

-- Q1.
theorem test_parse_applied : next (runWord 0x20000000 (holding (bytes "e2:45;"))) (fun t => t.block.msgReady = false ∧
    t.block.enc[2] = ⟨45, 0, true⟩ ∧ t.resp = .parse ⟨.applied, .encoder, 2, 45, true⟩) = true := by decide
-- Q29: malformed goes before range.
theorem test_parse_malformed : next (runWord 0x20000000 (holding (bytes "e99:;"))) (fun t => t.block.errLast = 3 ∧
    t.block.cntMal = 1 ∧ t.block.cntRng = 0 ∧ t.resp = .parse ⟨.malformed, .encoder, 0, 0, false⟩) = true := by decide
-- Q18: the longest frame.
theorem test_encoderUpdate_longest :
    next (exec .encoderUpdate (holding (bytes "e0:" ++ List.replicate 24 0x30#8 ++ bytes "127;")))
      (fun t => t.block.enc[0].cur = 127) = true := by decide
-- Q9.
theorem test_encoderUpdate_negative : next (exec .encoderUpdate (holding (bytes "e-1:5;"))) (fun t =>
    t.block.errLast = 4 ∧ t.block.cntRng = 1 ∧ t.block.enc = s0.block.enc) = true := by decide
-- Q13.
theorem test_buttonUpdate : next (exec .buttonUpdate (holding (bytes "b3:-2;"))) (fun t =>
    t.block.btn[3] = ⟨1, 0, true⟩ ∧ t.resp = .parse ⟨.applied, .button, 3, 1, true⟩) = true := by decide
-- Q30.
theorem test_unknownKind : next (exec (.unknownKind 0x45#8) (holding (bytes "E1:2;"))) (fun t =>
    t.block.errLast = 2 ∧ t.block.cntUnk = 1 ∧ t.resp = .parse ⟨.unknown, .encoder, 0, 0, false⟩) = true := by decide
-- PL1.
theorem test_poll_completes : next (runWord 0x3400003B (receiving (bytes "e2:45"))) (fun t => t.block.enc[2].cur = 45 ∧
    t.block.msgReady = false ∧ t.resp = .poll ⟨true, true, false⟩ ⟨.applied, .encoder, 2, 45, true⟩) = true := by decide
-- PL2: the byte is held, the frame is parsed.
theorem test_poll_held : next (runWord 0x34000062 (holding (bytes "e2:45;"))) (fun t => t.block.rxState = .idle ∧
    t.block.rxLen = 0 ∧ t.resp = .poll ⟨false, false, false⟩ ⟨.applied, .encoder, 2, 45, true⟩) = true := by decide
-- PL4.
theorem test_pollNb : next (runWord 0x30000000 (holding (bytes "e2:45;"))) (fun t => t.block.msgReady = false ∧
    t.resp = .poll ⟨false, false, false⟩ ⟨.applied, .encoder, 2, 45, true⟩) = true := by decide

/-! ### APPLY and DIFF (2.5, 2.6) -/

-- A7.
theorem test_apply_button : next (runWord 0x4801FFFF s0) (fun t => t.block.btn[1] = ⟨1, 0, true⟩ ∧
    t.resp = .parse ⟨.applied, .button, 1, 1, true⟩) = true := by decide
-- A9.
theorem test_apply_range : next (runWord 0x40040001 s0) (fun t => t.block.errLast = 4 ∧ t.block.cntRng = 1 ∧
    t.block.enc = s0.block.enc ∧ t.resp = .parse ⟨.range, .encoder, 0, 0, false⟩) = true := by decide
-- D-5's shape: a negative value from a channel that holds 10 (`used`).
theorem test_diff_negative : next (runWord 0x5000FFFF used) (fun t => t.block.enc[0] = ⟨0, 10, true⟩ ∧
    t.resp = .diff 0 true) = true := by decide
-- D-9.
theorem test_diff_fault : faults (runWord 0x50040000 s0) .diffIndexOutOfRange = true := by decide

/-! ### SNAP, DRAIN and READ (2.7 to 2.9) -/

/-- `RA` of 95_test_vectors.md 2.7. -/
def ra : SnapData := 0x00_0A_00_C8_FF_FE_00_05_A0#72

-- S1.
theorem test_snap_complete : next (runWord 0x60000009 { s0 with snapData := ra }) (fun t =>
    t.block.enc.toList.map (fun c => c.cur) = [10, 127, 0, 5] ∧ t.block.btn.toList.map (fun c => c.cur) = [1, 0, 1, 0] ∧
    t.resp = .snap true 0b1011 0b0101) = true := by decide
-- S3.
theorem test_snap_short : next (runWord 0x60000005 { s0 with snapData := ra }) (fun t => t.block.errLast = 5 ∧
    t.block.cntBus = 1 ∧ t.block.enc = s0.block.enc ∧ t.resp = .snap false 0 0) = true := by decide
-- S11: the words are unsigned when `SNAP_ENC_SIGNED` is false.
theorem test_snap_unsigned :
    (snapBlock { nCh := 4, snapEncSigned := false } 9 ra (Block.zero 4)).map (fun x => x.2) =
      .ok (true, 0b1111, 0b0101) := by rfl
-- S12: two channels.
theorem test_snap_two_channels :
    (snapBlock { nCh := 2, snapEncSigned := true } 9 ra (Block.zero 2)).map (fun x => x.2) =
      .ok (true, 0b0011, 0b0001) := by rfl
-- DR2's shape, on one changed encoder.
theorem test_drain : next (runWord 0x70000000 used) (fun t => t.resp = .drain 0b0001 0 ∧
    t.block.enc[0] = ⟨10, 0, false⟩) = true := by decide
-- DR2.
theorem test_drain_sequence : drainSequence (0b1011#4) (0b0101#4) =
    [(.encoder, 0), (.encoder, 1), (.encoder, 3), (.button, 0), (.button, 2)] := by decide
-- RD2's shape: READ does not clear the flag.
theorem test_read : next (runWord 0x80000000 used) (fun t => t.resp = .read 10 0 true ∧ t.block = used.block) = true := by
  decide
-- RD3.
theorem test_read_fault : faults (runWord 0x88040000 s0) .readIndexOutOfRange = true := by decide

/-! ### Reserved words, reset and the ports -/

-- 2.1: OP at or above 0xA.
theorem test_reservedAB : faults (runWord 0xA0000000 s0) .reservedOpcode = true := by decide
theorem test_reservedCF : faults (runWord 0xFFFFFFFF s0) .reservedOpcode = true := by decide
-- RS2: reset drops the held frame.
theorem test_reset_drops_frame :
    next (step { holding (bytes "e2:45;") with inputs := [PortInput.reset 0] }) (fun t => t.block.msgReady = false) =
      true := by decide
-- R270, U13.
theorem test_reset_with_command :
    refuses (step { s0 with inputs := [⟨true, some 0, 0⟩] }) .commandDuringReset = true := by decide
-- R256: with nothing on the ports the block waits.
theorem test_no_input : next (step used) (fun t => t = used) = true := by decide
-- OPEN-1: only queued bytes are dropped, and only after an overflow.
theorem test_flush :
    (({ s0 with resp := .rxb ⟨true, false, true⟩,
                inputs := [PortInput.ofWord 0x10000061#32 0, PortInput.ofWord 0x90000000#32 0] } : State).hostFlush 2).inputs =
      [PortInput.ofWord 0x90000000#32 0] := by decide

/-! ### Runs and other parameters -/

-- R285 on P5's first and third commands with an input without a command between them: two outputs, in order.
theorem test_run_outputs :
    (run [PortInput.ofWord 0x40000005#32 0, ⟨false, none, 0⟩, PortInput.ofWord 0x70000000#32 0]).outputs =
      [.parse ⟨.applied, .encoder, 0, 5, true⟩, .drain 0b0001 0b0000] := by decide
-- R8: a run ends at a host fault.
theorem test_run_fault :
    (run [PortInput.ofWord 0#32 0, PortInput.ofWord 0x00000001#32 0, PortInput.ofWord 0#32 0]).outputs = [.none] ∧
    faults (run [PortInput.ofWord 0#32 0, PortInput.ofWord 0x00000001#32 0, PortInput.ofWord 0#32 0]).ending
      .unusedField = true := by decide
-- R5: with 2 channels, channel 1 is the last one.
theorem test_two_channels :
    execFor ⟨2, true⟩ (.read .encoder 1) (StateOf.reset ⟨2, true⟩) =
      .next { StateOf.reset ⟨2, true⟩ with resp := .read 0 0 false } ∧
    execFor ⟨2, true⟩ (.read .encoder 2) (StateOf.reset ⟨2, true⟩) = .fault .readIndexOutOfRange := ⟨rfl, rfl⟩

/-! ### Witnesses: states and operands that meet the hypotheses of the statements -/

/-- The invariant holds with a frame held. -/
theorem witness_inv_held : (holding (bytes "e1:1;")).Inv where
  idleEmpty := by decide
  receiving := by decide
  held := fun _ => ⟨by decide, by decide, 4, by decide, by decide, by decide, by decide, by decide⟩
  errCode := by decide
  fbWf := by decide

/-- The invariant holds while a frame is received. -/
theorem witness_inv_receiving : (receiving (bytes "e1")).Inv where
  idleEmpty := by decide
  receiving := by decide
  held := by decide
  errCode := by decide
  fbWf := by decide

/-- The invariant holds in an idle state that is not the reset state. -/
theorem witness_inv_used : used.Inv where
  idleEmpty := by decide
  receiving := by decide
  held := by decide
  errCode := by decide
  fbWf := by decide

theorem witness_ByteHeldWhileFrameWaits : (holding (bytes "e1:1;")).block.msgReady = true := by decide

theorem witness_ByteOverflowsFullFrame :
    let s := receiving (List.replicate 31 0x61#8)
    s.block.msgReady = false ∧ s.block.rxLen.toNat > 30 := by decide

theorem witness_IdleIgnoresTerminatorAndNoise :
    s0.block.rxState = .idle ∧ s0.block.msgReady = false ∧ s0.block.rxLen.toNat ≤ 30 ∧
      0x3B#8 ∈ [0x3B#8, 0x0A#8, 0x0D#8, 0x00#8] := by decide

theorem witness_IdleStoresFirstByte :
    used.block.fb.wf = true ∧ used.block.rxState = .idle ∧ used.block.msgReady = false ∧ used.block.rxLen.toNat ≤ 30 ∧
      0x62#8 ∉ [0x3B#8, 0x0A#8, 0x0D#8, 0x00#8] := by decide

/-- At the last index a byte may be appended at. -/
theorem witness_ReceivingAppendsByte :
    let s := receiving (List.replicate 30 0x61#8)
    s.block.fb.wf = true ∧ s.block.rxState = .receiving ∧ s.block.msgReady = false ∧ s.block.rxLen.toNat = 30 ∧
      0x61#8 ∉ [0x3B#8, 0x0A#8, 0x0D#8, 0x00#8] := by decide

/-- The hypotheses of TerminatorCompletesFrame and ReceivingIgnoresNoise, at both ends of `RX.len`. -/
theorem witness_TerminatorCompletesFrame :
    ∀ s ∈ [receiving (bytes "e"), receiving (List.replicate 30 0x61#8)],
      s.block.fb.wf = true ∧ s.block.rxState = .receiving ∧ s.block.msgReady = false ∧ s.block.rxLen.toNat ≤ 30 := by
  decide

theorem witness_ReceivingIgnoresNoise :
    let s := receiving (bytes "e")
    s.block.rxState = .receiving ∧ s.block.msgReady = false ∧ s.block.rxLen.toNat ≤ 30 ∧
      0x00#8 ∈ [0x0A#8, 0x0D#8, 0x00#8] := by decide

theorem witness_ParseWithNothingHeld : (receiving (bytes "e2:4")).block.msgReady = false := by decide

/-- A frame is held by a state with its bytes at the start of the frame buffer. -/
theorem witness_ParseDropsUnknownKind :
    let s := holding (bytes "x9:zz;")
    s.block.msgReady = true ∧ HeldFrame s.block (0x78#8 :: bytes "9:zz;") ∧ 0x78#8 ∉ [0x65#8, 0x62#8] :=
  ⟨by decide, ⟨5, by decide, by decide, by decide, by decide⟩, by decide⟩

theorem witness_ParseDropsMalformedBody :
    let s := holding (bytes "b;")
    s.block.msgReady = true ∧ HeldFrame s.block (0x62#8 :: [] ++ [0x3B#8]) ∧ 0x62#8 ∈ [0x65#8, 0x62#8] ∧
      ¬∃ ch v, IsBody [] ch v :=
  ⟨by decide, ⟨1, by decide, by decide, by decide, by decide⟩, by decide, by simp [IsBody]⟩

/-- A channel at `N_CH`. -/
theorem witness_ParseDropsChannelOutOfRange :
    let s := holding (bytes "e4:1;")
    s.block.msgReady = true ∧ HeldFrame s.block (0x65#8 :: bytes "4:1" ++ [0x3B#8]) ∧ 0x65#8 ∈ [0x65#8, 0x62#8] ∧
      IsBody (bytes "4:1") 4 1 ∧ ((4 : Int) < 0 ∨ (Config.isc.nCh : Int) ≤ 4) :=
  ⟨by decide, ⟨4, by decide, by decide, by decide, by decide⟩, by decide,
    ⟨bytes "4", bytes "1", by decide, .plain _ (by unfold IsDigits; decide), .plain _ (by unfold IsDigits; decide)⟩,
    by decide⟩

/-- A channel below 0. -/
theorem witness_ParseDropsChannelOutOfRange_negative :
    let s := holding (bytes "e-1:5;")
    s.block.msgReady = true ∧ HeldFrame s.block (0x65#8 :: bytes "-1:5" ++ [0x3B#8]) ∧
      IsBody (bytes "-1:5") (-1) 5 ∧ ((-1 : Int) < 0 ∨ (Config.isc.nCh : Int) ≤ -1) :=
  ⟨by decide, ⟨5, by decide, by decide, by decide, by decide⟩,
    ⟨bytes "-1", bytes "5", by decide, .minus (bytes "1") (by unfold IsDigits; decide),
      .plain _ (by unfold IsDigits; decide)⟩, by decide⟩

/-- The last channel, by a button frame with a negative value. -/
theorem witness_ParseAppliesMessage :
    let s := holding (bytes "b3:-2;")
    s.block.msgReady = true ∧ HeldFrame s.block (0x62#8 :: bytes "3:-2" ++ [0x3B#8]) ∧
      IsBody (bytes "3:-2") (((⟨3, by decide⟩ : Fin Config.isc.nCh).val : Nat) : Int) (-2) :=
  ⟨by decide, ⟨5, by decide, by decide, by decide, by decide⟩,
    ⟨bytes "3", bytes "-2", by decide, .plain _ (by unfold IsDigits; decide),
      .minus (bytes "2") (by unfold IsDigits; decide)⟩⟩

/-- The hypotheses of ParserCompletesUnderInvariant, PollIsReceiveThenParse, NoAccessOutsideBuffer and
HoldLiftedByParse, and of KindRowIsParse. -/
theorem witness_ParserCompletesUnderInvariant :
    (holding (bytes "e1:1;")).Inv ∧ (holding (bytes "e1:1;")).block.msgReady = true :=
  ⟨witness_inv_held, by decide⟩

/-- R100 at the edges of its clauses. -/
theorem witness_NormalisedValues :
    (norm .encoder (-1)).toNat = 0 ∧ (norm .encoder 0).toNat = 0 ∧ (norm .encoder 127).toNat = 127 ∧
    (norm .encoder 128).toNat = 127 ∧ (norm .button 0).toNat = 0 ∧ (norm .button (-2)).toNat = 1 := by decide

/-- The last index in range and the first one out of it, for APPLY, DIFF, READ and UpdatesCoalesce. -/
theorem witness_index_edges : (3#8).toNat < Config.isc.nCh ∧ Config.isc.nCh ≤ (4#8).toNat := by decide

/-- Two channels that differ in kind only, and two that differ in index only. -/
theorem witness_DifferUpdatesCommute :
    ¬(Kind.button = Kind.encoder ∧ (0 : Fin 4) = 0) ∧ ¬(Kind.encoder = Kind.encoder ∧ (1 : Fin 4) = 0) := by decide

/-- Updates whose last change is followed by equal values, as UpdatesCoalesce's last clause asks. -/
theorem witness_UpdatesCoalesce :
    ([5#7, 0#7, 0#7] = [5#7] ++ 0#7 :: [0#7]) ∧ (0#7 ≠ curAfter 0#7 [5#7]) ∧ (∀ x ∈ [0#7], x = 0#7) := by decide

/-- Reply lengths below 9 and above it, at the edges, for SnapShortReplyRecorded and SnapOverlongFaults. -/
theorem witness_snap_lengths : (0#4).toNat < 9 ∧ (8#4).toNat < 9 ∧ 9 < (10#4).toNat ∧ 9 < (15#4).toNat := by decide

/-- A channel below 4 and one at 4, and a mask bit of no channel, for SnapForAnyParameters. -/
theorem witness_SnapForAnyParameters : (3 : Fin 5).val < 4 ∧ 4 ≤ (4 : Fin 5).val ∧ (2 : Nat) ≤ 3 := by decide

theorem witness_SecondDrainEmpty :
    exec .drain used = .next { used with block := (drainBlock used.block).1, resp := .drain 0b0001 0 } := rfl

theorem witness_ReservedWordsFault : 0xA0000000 ≤ (0xA0000000#32).toNat ∧ decodeCmd 0 = .ok .nop := by decide

/-- The edges of UnusedFieldsFault's clauses. -/
theorem witness_UnusedFieldsFault :
    ((0x90000001#32).toNat < 0xA0000000 ∧ ∀ r ∈ cmdRows, r.matches 0x90000001#32 = false) ∧
    (0x6000000A ≤ (0x6000000A#32).toNat ∧ (0x6000000F#32).toNat ≤ 0x6000000F) := by decide

/-- A word, its row and its operation, for WordsSelectRows, OperandsAreWordFields and EncodeDecodeAgree; a word of
SNAP's row that decoding rejects. -/
theorem witness_WordsSelectRows :
    decodeCmd 0x4002002D#32 = .ok (.apply .encoder 2 45) ∧
    (∃ r ∈ cmdRows, r.matches 0x4002002D#32 = true) ∧
    (∃ r ∈ cmdRows, r.matches 0x6000000A#32 = true ∧ decodeCmd 0x6000000A#32 = .error .snapLengthOver9) := by
  refine ⟨rfl, ⟨_, List.mem_of_getElem? (i := 5) rfl, by decide⟩, ⟨_, List.mem_of_getElem? (i := 7) rfl, by decide, rfl⟩⟩

theorem witness_DecodeEncodeAgree : Instr.wf (.snap 9) = true ∧ Instr.wf (.ord 0xFF#8) = true := by decide

/-- One state for each clause of StepRunsDecodedCommand and for ResetInputSetsValues. -/
theorem witness_StepRunsDecodedCommand :
    ({ s0 with inputs := [PortInput.ofWord 0x20000000#32 0] } : State).inputs =
      PortInput.ofWord 0x20000000#32 0 :: [] ∧
    (PortInput.ofWord 0x20000000#32 0).rst = false ∧ (PortInput.ofWord 0x20000000#32 0).cmd = some 0x20000000#32 ∧
    decodeCmd 0x20000000#32 = .ok .parse ∧ decodeCmd 0x20000001#32 = .error .unusedField ∧
    (PortInput.reset 0).rst = true ∧ (PortInput.reset 0).cmd = none ∧ s0.inputs = [] :=
  ⟨rfl, rfl, rfl, rfl, rfl, rfl, rfl, rfl⟩

/-- A state that meets the invariant and has a command to take. -/
theorem witness_StepKeepsInvariant :
    ({ holding (bytes "e1:1;") with inputs := [PortInput.ofWord 0#32 0] } : State).Inv ∧
    ∃ t, step { holding (bytes "e1:1;") with inputs := [PortInput.ofWord 0#32 0] } = .next t :=
  ⟨witness_inv_held, _, rfl⟩

/-- An operation that is no byte operation and completes, for OnlyByteOperationsWriteReceiver, ChangedFlagSticky and
AtMostOneErrorRecorded; DRAIN for the clause about it. -/
theorem witness_ChangedFlagSticky :
    (∃ t, exec .parse (holding (bytes "e1:1;")) = .next t) ∧ (∃ t, exec .drain used = .next t) ∧
    (∀ b, Instr.parse ≠ .rxb b ∧ Instr.parse ≠ .poll b ∧ Instr.parse ≠ .ord b) ∧
    (used.block.chan .encoder ⟨0, by decide⟩).chg = true :=
  ⟨⟨_, rfl⟩, ⟨_, rfl⟩, by simp, by decide⟩

/-- A word that is no host fault, and one of each clause, for HostFaultsExactly. -/
theorem witness_HostFaultsExactly :
    (holding (bytes "e1:1;")).Inv ∧
    (∃ r ∈ cmdRows, r.matches 0x20000000#32 = true) ∧ (0x20000000#32).toNat < 0xA0000000 ∧
    (0x50040000#32).extractLsb' 28 4 = 5#4 ∧ Config.isc.nCh ≤ ((0x50040000#32).extractLsb' 16 8).toNat :=
  ⟨witness_inv_held, ⟨_, List.mem_of_getElem? (i := 2) rfl, by decide⟩, by decide, by decide, by decide⟩

theorem witness_SendNeverHolds : (receiving (bytes "e1")).Inv ∧ (receiving (bytes "e1")).block.msgReady = false :=
  ⟨witness_inv_receiving, by decide⟩

/-- A stream with no `';'` that is longer than a frame can be. -/
theorem witness_NoFrameWithoutTerminator :
    s0.block.msgReady = false ∧ ∀ b ∈ List.replicate 40 0x61#8, b ≠ 0x3B#8 := by decide

theorem witness_ThirtySecondByteOverflows :
    s0.block.rxState = .idle ∧ s0.block.rxLen = 0 ∧ s0.block.msgReady = false ∧ (List.replicate 31 0x61#8).length = 31 ∧
      ∀ x ∈ List.replicate 31 0x61#8, x ∉ [0x3B#8, 0x0A#8, 0x0D#8, 0x00#8] := by decide

/-- A stream with noise in it, and the hypotheses of SendMsgEqualsApply. -/
theorem witness_FrameAssembledFromStream :
    used.Inv ∧ used.block.rxState = .idle ∧ used.block.msgReady = false ∧
    (∀ b ∈ bytes "e1\n:2", b ≠ 0x3B#8) ∧
    ((bytes "e1\n:2").filter (fun b => b ∉ [0x0A#8, 0x0D#8, 0x00#8])).length = 4 :=
  ⟨witness_inv_used, by decide, by decide, by decide, by decide⟩

/-- A run that completed, a word that completes after it and one that is a host fault. -/
theorem witness_RunExtendsByOneCommand :
    (∃ outs t, run [PortInput.ofWord 0x40000005#32 0] = { outputs := outs, ending := .next t } ∧
      (∃ u, runCmd 0x70000000#32 { t with snapData := 0 } = .next u) ∧
      runCmd 0x00000001#32 { t with snapData := 0 } = .fault .unusedField) ∧
    (PortInput.ofWord 0x70000000#32 0).rst = false ∧ (PortInput.ofWord 0x70000000#32 0).cmd = some 0x70000000#32 ∧
    (⟨false, none, 0⟩ : PortInput).rst = false :=
  ⟨⟨_, _, rfl, ⟨_, rfl⟩, rfl⟩, rfl, rfl, rfl⟩

/-- The last index in range and the first one out of it for one and for 255 channels, and a step from a state that meets
the invariant. -/
theorem witness_MachineForAnyParameters :
    (0#8).toNat < (⟨1, true⟩ : Params).nCh ∧ (⟨1, true⟩ : Params).nCh ≤ (1#8).toNat ∧
    (254#8).toNat < (⟨255, false⟩ : Params).nCh ∧ (⟨255, false⟩ : Params).nCh ≤ (255#8).toNat ∧
    used.toStateOf.block.Inv ∧ ∃ t, stepFor Config.isc { used.toStateOf with inputs := [PortInput.ofWord 0#32 0] } = .next t :=
  ⟨by decide, by decide, by decide, by decide, witness_inv_used, _, rfl⟩

end Sys2Proof.Tests
end

section
/-! PROOFS of the family 00_scope. Which instructions a command word decodes to, the invariant through the reset step,
one operation and one step for any parameters (10_state.md R27), the machine for any parameters seen as this hardware
(00_scope.md R5), and APPLY, DIFF and READ on it (R105, R165, R166, R196). -/

namespace Sys2Proof

/-- A guarded decoding answers its own instruction or nothing (R91). -/
theorem decodeIf_eq_ok {c : Bool} {i j : Instr} (h : decodeIf c i = .ok j) : j = i := by
  cases c
  · cases h
  · exact (Except.ok.inj h).symm

/-- A command word decodes to well-formed instructions only (R89 to R91). -/
theorem decodeCmd_wf {w : CmdWord} {i : Instr} (h : decodeCmd w = .ok i) : i.wf = true := by
  unfold decodeCmd at h
  dsimp only at h
  split at h
  case h_4 => split at h <;> rw [decodeIf_eq_ok h] <;> rfl
  case h_7 =>
    split at h
    · split at h
      · next hn => cases h; exact decide_eq_true hn
      · cases h
    · cases h
  case h_11 | h_12 | h_13 => cases h; rfl
  all_goals rw [decodeIf_eq_ok h]; rfl

end Sys2Proof

namespace Sys2Proof.Machine

variable {p : Params}

/-! ### The invariant for any parameters -/

/-- The reset step establishes the invariant on any canonical frame buffer (R271, R27). -/
theorem resetStep_inv {n : Nat} {s : Block n} (h : s.fb.wf = true) : s.resetStep.Inv where
  idleEmpty _ := rfl
  receiving hr := by cases hr
  held hm := by cases hm
  errCode := Nat.zero_le 5
  fbWf := h

/-- The reset values meet the invariant (R271, R27): they are what the reset step leaves of themselves. -/
theorem zero_inv (n : Nat) : (Block.zero n).Inv := resetStep_inv (s := Block.zero n) wf_nil

/-- DRAIN keeps the invariant: it writes channels only (R194). -/
theorem drainBlock_keeps_inv {n : Nat} {s : Block n} (h : s.Inv) : (drainBlock s).1.Inv :=
  inv_of_same h rfl rfl id rfl h.errCode

/-- APPLY keeps the invariant, in range or not (R166). -/
theorem applyMsg_keeps_inv {k : Kind} {ch v : Int} {s : Block p.nCh} (h : s.Inv) : (applyMsg p k ch v s).1.Inv := by
  obtain ⟨hstate, hlen, hready, hfb, herr⟩ := applyMsg_keeps p k ch v s
  refine inv_of_same h hstate hlen (hready ▸ id) hfb ?_
  rcases herr with e | e <;> rw [e]
  · exact h.errCode
  · decide

/-- DIFF keeps the invariant where it completes (R105). -/
theorem diffBlock_keeps_inv {k : Kind} {idx : Nat} {v : Int} {s : Block p.nCh} {x} (h : s.Inv)
    (hx : diffBlock p k idx v s = .ok x) : x.1.Inv := by
  unfold diffBlock at hx
  split at hx <;> cases hx
  exact differUpdate_keeps_inv _ _ _ s h

/-- READ writes nothing (R196). -/
theorem readBlock_block {k : Kind} {idx : Nat} {s : Block p.nCh} {x} (hx : readBlock p k idx s = .ok x) : x.1 = s := by
  unfold readBlock at hx
  split at hx <;> cases hx
  rfl

/-- What holds of the block of every result of an operation holds of the block of its recorded result. -/
theorem record_block {n : Nat} {α : Type} {out : α → Resp n} {r : Except Fault (Block n × α)} {P : Block n → Prop}
    {y : Block n × Resp n} (h : ∀ x, r = .ok x → P x.1) (hy : record out r = .ok y) : P y.1 := by
  obtain ⟨x, hx, rfl⟩ := record_eq_ok hy
  exact h x hx

/-- Every well-formed instruction keeps the invariant where it completes, for any parameters (R27). Of the terms that
stand for no encoding only ORD with a byte of another class could break it. -/
theorem blockOp_keeps_inv {i : Instr} {r : SnapData} {s : Block p.nCh} {y : Block p.nCh × Resp p.nCh}
    (hi : i.wf = true) (h : s.Inv) (hy : blockOp p i r s = .ok y) : y.1.Inv := by
  have parser (dec) (x) (hx : parseWith p dec s = .ok x) : x.1.Inv := (parseWith_keeps_inv p dec s x h hx).1
  cases i with
  | nop | rdstat => cases hy; exact h
  | reservedAB | reservedCF => cases hy
  | rxb b => exact record_block (fun x => receive_keeps_inv b s x h) hy
  | term => exact record_block (fun x => receive_keeps_inv Ascii.semi s x h) hy
  | noiseNul => exact record_block (fun x => receive_keeps_inv Ascii.nul s x h) hy
  | noiseLf => exact record_block (fun x => receive_keeps_inv Ascii.lf s x h) hy
  | noiseCr => exact record_block (fun x => receive_keeps_inv Ascii.cr s x h) hy
  | ord b =>
    have hb : classify b = .ord := (wf_ord_iff b).mp hi
    exact record_block (fun x hx => receive_keeps_inv b s x h (by rw [receive, hb]; exact hx)) hy
  | parse | encoderUpdate | buttonUpdate | unknownKind => exact record_block (parser _) hy
  | poll b =>
    exact record_block (fun x hx => (pollBlock_keeps_inv p (some b) s x h hx).1) (show pollOp p b s = .ok y from hy)
  | pollNb =>
    exact record_block (fun x hx => (pollBlock_keeps_inv p none s x h hx).1) (show pollNbOp p s = .ok y from hy)
  | apply => cases hy; exact applyMsg_keeps_inv h
  | diff k idx imm =>
    exact record_block (fun _ hx => diffBlock_keeps_inv h hx) (show diffOp p k idx imm s = .ok y from hy)
  | snap n =>
    exact record_block (fun x => snapBlock_keeps_inv p n.toNat r s x h) (show snapOp p n r s = .ok y from hy)
  | drain => cases hy; exact drainBlock_keeps_inv h
  | read k idx =>
    have same : y.1 = s :=
      record_block (P := (· = s)) (fun _ hx => readBlock_block hx) (show readOp p k idx s = .ok y from hy)
    exact same.symm ▸ h

/-! ### One step for any parameters -/

/-- An input that is taken and answers a next state was a reset, carried no command, or ran the operation its word
decodes to (R270, R83). -/
theorem runInputBy_cases {σ : Type} {ex : Instr → σ → Host.Outcome σ Fault Refusal} {reset s t : σ} {x : PortInput}
    (h : runInputBy ex reset x s = .next t) :
    t = reset ∨ t = s ∨ ∃ w i, x.cmd = some w ∧ decodeCmd w = .ok i ∧ ex i s = .next t := by
  unfold runInputBy at h
  split at h
  · split at h <;> cases h
    exact .inl rfl
  · split at h
    · cases h; exact .inr (.inl rfl)
    · next w hw =>
      unfold runCmdBy at h
      split at h
      · next i hi => exact .inr (.inr ⟨w, i, hw, hi, h⟩)
      · cases h

/-- What an instruction leaves on a machine with the parameters `p` when it answers a next state. -/
theorem execFor_next {i : Instr} {s t : StateOf p} (h : execFor p i s = .next t) :
    ∃ y, blockOp p i s.snapData s.block = .ok y ∧ t = { s with block := y.1, resp := y.2 } := by
  unfold execFor at h
  cases hy : blockOp p i s.snapData s.block with
  | ok y => rw [hy] at h; cases h; exact ⟨y, rfl, rfl⟩
  | error f => rw [hy] at h; cases h

/-- A step keeps the invariant, whatever stands on the ports and for any parameters (R27). -/
theorem stepFor_keeps_inv {s t : StateOf p} (h : s.block.Inv) (ht : stepFor p s = .next t) : t.block.Inv := by
  unfold stepFor at ht
  split at ht
  · cases ht; exact h
  · rcases runInputBy_cases ht with rfl | rfl | ⟨w, i, -, hw, hi⟩
    · exact resetStep_inv h.fbWf
    · exact h
    · obtain ⟨y, hy, rfl⟩ := execFor_next hi
      exact blockOp_keeps_inv (decodeCmd_wf hw) h hy

/-! ### This hardware as a machine with its parameters -/

/-- An outcome with its state replaced by the state it stands for; `stepFor_toStateOf` is what ties it to the model. -/
def mapOutcome {σ τ : Type} (f : σ → τ) : Host.Outcome σ Fault Refusal → Host.Outcome τ Fault Refusal
  | .next s => .next (f s)
  | .fault e => .fault e
  | .refused q => .refused q

/-- Taking an input commutes with a map of states that the instructions' meanings and the reset state commute with. -/
theorem runInputBy_mapOutcome {σ τ : Type} {f : σ → τ} {ex : Instr → σ → Host.Outcome σ Fault Refusal}
    {ex' : Instr → τ → Host.Outcome τ Fault Refusal} (h : ∀ i s, ex' i (f s) = mapOutcome f (ex i s))
    (reset : σ) (x : PortInput) (s : σ) :
    runInputBy ex' (f reset) x (f s) = mapOutcome f (runInputBy ex reset x s) := by
  obtain ⟨rst, cmd, data⟩ := x
  cases cmd with
  | none => cases rst <;> rfl
  | some w =>
    cases rst with
    | true => rfl
    | false =>
      show runCmdBy ex' w (f s) = mapOutcome f (runCmdBy ex w s)
      unfold runCmdBy
      cases decodeCmd w with
      | ok i => exact h i s
      | error e => rfl

/-- An instruction does the same on this hardware and on the machine with its parameters (R5). -/
theorem execFor_toStateOf (i : Instr) (s : State) :
    execFor Config.isc i s.toStateOf = mapOutcome State.toStateOf (exec i s) := by
  rw [exec_blockOp]
  show completeBy _ (blockOp Config.isc i s.snapData s.block) = _
  cases blockOp Config.isc i s.snapData s.block <;> rfl

/-- A step does the same on this hardware and on the machine with its parameters, in all three outcomes (R5). -/
theorem stepFor_toStateOf (s : State) : stepFor Config.isc s.toStateOf = mapOutcome State.toStateOf (step s) := by
  obtain ⟨block, snapData, inputs, resp⟩ := s
  cases inputs with
  | nil => rfl
  | cons x rest =>
    exact runInputBy_mapOutcome execFor_toStateOf (applyReset ⟨block, x.snapData, rest, resp⟩) x
      ⟨block, x.snapData, rest, resp⟩

/-! ### APPLY, DIFF and READ for any `N_CH` -/

section Indexed

variable (k : Kind) (idx : BitVec 8) (imm : BitVec 16) (s : StateOf p)

/-- APPLY of a channel below `N_CH` is one differ update, with its record (R166, R168). -/
theorem execFor_apply_inside (h : idx.toNat < p.nCh) :
    execFor p (.apply k idx imm) s = .next { s with
      block := (differUpdate k ⟨idx.toNat, h⟩ (norm k imm.toInt) s.block).1
      resp := .parse ⟨.applied, k, idx.toNat, (norm k imm.toInt).toNat,
        (differUpdate k ⟨idx.toNat, h⟩ (norm k imm.toInt) s.block).2⟩ } := by
  have hr : (0 : Int) ≤ idx.toNat ∧ (idx.toNat : Int) < p.nCh := by omega
  rw [execFor, blockOp, applyOp, applyMsg_inside p k (zextIdx idx) (sext16 imm) s.block hr]
  rfl

/-- DIFF of a channel below `N_CH` is one differ update, with its record (R105). -/
theorem execFor_diff_inside (h : idx.toNat < p.nCh) :
    execFor p (.diff k idx imm) s = .next { s with
      block := (differUpdate k ⟨idx.toNat, h⟩ (norm k imm.toInt) s.block).1
      resp := .diff (norm k imm.toInt).toNat (differUpdate k ⟨idx.toNat, h⟩ (norm k imm.toInt) s.block).2 } := by
  rw [execFor, blockOp, diffOp, diffBlock_inside p k (zextIdx idx) (sext16 imm) s.block h]
  rfl

/-- READ of a channel below `N_CH` answers the channel and writes nothing (R196). -/
theorem execFor_read_inside (h : idx.toNat < p.nCh) :
    execFor p (.read k idx) s = .next { s with
      resp := .read (s.block.chan k ⟨idx.toNat, h⟩).cur.toNat (s.block.chan k ⟨idx.toNat, h⟩).prev.toNat
        (s.block.chan k ⟨idx.toNat, h⟩).chg } := by
  simp [execFor, blockOp, readOp, readBlock, zextIdx, h]

/-- APPLY at or above `N_CH` is a drop that is recorded (R165, R168). -/
theorem execFor_apply_outside (h : p.nCh ≤ idx.toNat) :
    execFor p (.apply k idx imm) s = .next { s with
      block := raise .channelOutOfRange s.block, resp := .parse (ParseOut.bare .range) } := by
  rw [execFor, blockOp, applyOp, applyMsg_outside p k (zextIdx idx) (sext16 imm) s.block (.inr (Int.ofNat_le.mpr h))]
  rfl

/-- DIFF at or above `N_CH` is a host fault (R105). -/
theorem execFor_diff_outside (h : p.nCh ≤ idx.toNat) : execFor p (.diff k idx imm) s = .fault .diffIndexOutOfRange := by
  simp [execFor, blockOp, diffOp, diffBlock, zextIdx, Nat.not_lt.mpr h]

/-- READ at or above `N_CH` is a host fault (R196). -/
theorem execFor_read_outside (h : p.nCh ≤ idx.toNat) : execFor p (.read k idx) s = .fault .readIndexOutOfRange := by
  simp [execFor, blockOp, readOp, readBlock, zextIdx, Nat.not_lt.mpr h]

/-- APPLY and DIFF of a channel below `N_CH` have one effect, that of the differ (R105, R166). -/
theorem execFor_differ_inside (h : idx.toNat < p.nCh) {i : Instr} (hi : i ∈ [Instr.apply k idx imm, .diff k idx imm]) :
    ∃ o, execFor p i s =
      .next { s with block := (differUpdate k ⟨idx.toNat, h⟩ (norm k imm.toInt) s.block).1, resp := o } := by
  rcases List.mem_pair.mp hi with rfl | rfl
  · exact ⟨_, execFor_apply_inside k idx imm s h⟩
  · exact ⟨_, execFor_diff_inside k idx imm s h⟩

end Indexed

/-- A differ update writes neither the frame buffer nor the receiver's registers (R101). -/
theorem differUpdate_sameFb_sameReceiver {n : Nat} (s : Block n) (k : Kind) (i : Fin n) (u : BitVec k.width) :
    SameFb s (differUpdate k i u s).1 ∧ SameReceiver s (differUpdate k i u s).1 := by
  simp [SameFb, SameReceiver]

/-- Settles O60: the steps commute with `State.toStateOf`, the invariant goes through the reset step and every decoded
operation, and an index decides between the differ (or the channel) and the drop or the fault. -/
theorem machineForAnyParameters : Obligations.MachineForAnyParameters := by
  refine ⟨rfl, fun s t h => ?_, fun s f h => ?_, fun s q h => ?_, fun p => ⟨zero_inv p.nCh, ?_, ?_, ?_⟩⟩
  · rw [stepFor_toStateOf, h]; rfl
  · rw [stepFor_toStateOf, h]; rfl
  · rw [stepFor_toStateOf, h]; rfl
  · exact fun s t hs ht => stepFor_keeps_inv hs ht
  · refine fun k idx imm s h => ⟨fun i hi => ?_, execFor_read_inside k idx s h⟩
    obtain ⟨o, ho⟩ := execFor_differ_inside k idx imm s h hi
    obtain ⟨hfb, hrx⟩ := differUpdate_sameFb_sameReceiver s.block k ⟨idx.toNat, h⟩ (norm k imm.toInt)
    exact ⟨_, ho, differUpdate_chan_same .., differUpdate_other s.block k _ _, differUpdate_errors .., hfb, hrx,
      rfl, rfl⟩
  · exact fun k idx imm s h => ⟨execFor_apply_outside k idx imm s h, execFor_diff_outside k idx imm s h,
      execFor_read_outside k idx s h⟩

end Sys2Proof.Machine
end

section
/-! PROOFS of the family 10_state. The invariant at reset and through a step (R27, R36, R51), the parser completing
under it (R27, R28, R167, R170), and what an operation can do to a channel, said once: at most one differ update, or
DRAIN's clearing (R32, R33). -/

namespace Sys2Proof.Machine

variable {p : Params}

/-! ### The invariant of this hardware -/

/-- Settles O46: a step of this hardware is a step of the machine with its parameters, which keeps the invariant. -/
theorem stepKeepsInvariant : Obligations.StepKeepsInvariant := by
  intro s t hs ht
  have hstep : stepFor Config.isc s.toStateOf = .next t.toStateOf := by rw [stepFor_toStateOf, ht]; rfl
  exact stepFor_keeps_inv (s := s.toStateOf) hs hstep

/-- Settles O45: the block at reset has the reset values. -/
theorem invariantAtReset : Obligations.InvariantAtReset := zero_inv Config.isc.nCh

/-! ### The parser completes -/

/-- An instruction whose operation completes answers the next state, with the ports as they were (R8). -/
theorem exec_of_blockOp {i : Instr} {s : State} {y : Block Config.isc.nCh × Resp Config.isc.nCh}
    (h : blockOp Config.isc i s.snapData s.block = .ok y) : exec i s = .next { s with block := y.1, resp := y.2 } := by
  rw [exec_blockOp, h, complete_ok]

/-- Under the invariant the parser completes, holds no frame afterwards and leaves the receiver and the buffer
(R167). -/
theorem parseWith_total (dec : List Byte → FrameDecode) {s : Block p.nCh} (h : s.Inv) :
    ∃ x, parseWith p dec s = .ok x ∧
      x.1.msgReady = false ∧ x.1.rxState = s.rxState ∧ x.1.rxLen = s.rxLen ∧ x.1.fb = s.fb := by
  obtain ⟨x, hx⟩ := parseWith_completes p dec s h
  exact ⟨x, hx, (parseWith_keeps_inv p dec s x h hx).2⟩

/-- `POLL -` is PARSE alone (R170). -/
theorem pollNbOp_of_parseFrame {s : Block p.nCh} {x : Block p.nCh × ParseOut} (hx : parseFrame p s = .ok x) :
    pollNbOp p s = .ok (x.1, .poll RxOut.held x.2) := by
  simp [pollNbOp, pollBlock, hx]

/-- POLL with a byte is RXB and then PARSE (R170). -/
theorem pollOp_of_receive_parseFrame {b : Byte} {s : Block p.nCh} {x : Block p.nCh × RxOut}
    {y : Block p.nCh × ParseOut} (hx : receive b s = .ok x) (hy : parseFrame p x.1 = .ok y) :
    pollOp p b s = .ok (y.1, .poll x.2 y.2) := by
  simp [pollOp, pollBlock, hx, hy]

/-- The operations that parse and take no byte are the parser with some decoder, up to the record (R161, R167, R170). -/
theorem blockOp_of_parseWith {b : Byte} {i : Instr}
    (hi : i ∈ [Instr.parse, .pollNb, .encoderUpdate, .buttonUpdate, .unknownKind b]) :
    ∃ dec, ∀ (r : SnapData) (s : Block p.nCh) (x), parseWith p dec s = .ok x →
      ∃ o, blockOp p i r s = .ok (x.1, o) := by
  simp only [List.mem_cons, List.not_mem_nil, or_false] at hi
  rcases hi with rfl | rfl | rfl | rfl | rfl
  · exact ⟨decodeFrame, fun _ _ _ hx => ⟨_, congrArg (record .parse) hx⟩⟩
  · exact ⟨decodeFrame, fun _ _ _ hx => ⟨_, pollNbOp_of_parseFrame hx⟩⟩
  all_goals exact ⟨decodeAs _, fun _ _ _ hx => ⟨_, congrArg (record .parse) hx⟩⟩

/-- POLL with a byte completes under the invariant and holds no frame afterwards: the receiver never faults, and the
parser completes on what it leaves (R51, R170). -/
theorem pollOp_total (b : Byte) {s : Block p.nCh} (h : s.Inv) :
    ∃ x, pollOp p b s = .ok x ∧ x.1.msgReady = false := by
  obtain ⟨x, hx⟩ := receiveAs_ok (classify b) b s
  obtain ⟨y, hy, hready, -⟩ := parseWith_total decodeFrame (receive_keeps_inv b s x h hx)
  exact ⟨_, pollOp_of_receive_parseFrame hx hy, hready⟩

/-- Settles O14: the operations that take no byte are the parser with their decoder, and POLL with a byte is the
receiver and then the parser. -/
theorem parserCompletesUnderInvariant : Obligations.ParserCompletesUnderInvariant := by
  refine fun b s hs => ⟨fun i hi => ?_, ?_⟩
  · obtain ⟨dec, hdec⟩ := blockOp_of_parseWith (p := Config.isc) hi
    obtain ⟨x, hx, hready, hstate, hlen, hfb⟩ := parseWith_total dec hs
    obtain ⟨o, ho⟩ := hdec s.snapData s.block x hx
    exact ⟨_, exec_of_blockOp ho, hready, hstate, hlen, fun a => congrArg (·.read a) hfb, rfl, rfl⟩
  · obtain ⟨x, hx, hready⟩ := pollOp_total b hs
    exact ⟨_, exec_of_blockOp (i := .poll b) hx, hready, rfl, rfl⟩

/-! ### One update of a channel -/

/-- An update with the current value changes nothing (R101). -/
theorem updated_self {w : Nat} (c : Chan w) : c.updated c.cur = c := if_pos rfl

/-- An update with another value sets the flag and keeps the old value in `prev` (R101). -/
theorem updated_of_ne {w : Nat} {c : Chan w} {u : BitVec w} (h : u ≠ c.cur) :
    c.updated u = { cur := u, prev := c.cur, chg := true } := if_neg h

/-- The flag after an update is set only if it was set before or the value changed (R33). -/
theorem chg_of_updated {w : Nat} {c : Chan w} {u : BitVec w} (h : (c.updated u).chg = true) :
    c.chg = true ∨ (c.updated u).cur ≠ c.cur := by
  by_cases e : u = c.cur
  · subst e; exact .inl (updated_self c ▸ h)
  · exact .inr ((updated_cur c u).symm ▸ e)

/-- Every channel of `t` is that of `s` after one differ update; the update may be with the current value. -/
def UpdatedOnce {n : Nat} (s t : Block n) : Prop := ∀ k i, ∃ u, t.chan k i = (s.chan k i).updated u

/-- A channel left alone counts as updated with its current value. -/
theorem exists_updated_of_eq {w : Nat} {c d : Chan w} (h : d = c) : ∃ u, d = c.updated u :=
  ⟨c.cur, h.trans (updated_self c).symm⟩

/-- A table left alone counts as updated once. -/
theorem updatedOnce_of_sameTable {n : Nat} {s t : Block n} (h : SameTable s t) : UpdatedOnce s t :=
  fun k i => exists_updated_of_eq (h k i)

/-- Blocks with the same banks have the same channels (R29). -/
theorem sameTable_of_banks {n : Nat} {s t : Block n} (henc : t.enc = s.enc) (hbtn : t.btn = s.btn) : SameTable s t := by
  intro k i
  cases k
  · exact congrArg (·[i]) henc
  · exact congrArg (·[i]) hbtn

/-- An update of what has the channels of `s` is an update of `s`. -/
theorem UpdatedOnce.of_sameTable {n : Nat} {s t u : Block n} (hst : SameTable s t) (htu : UpdatedOnce t u) :
    UpdatedOnce s u := fun k i => hst k i ▸ htu k i

/-- A differ update updates its own channel and leaves the others (R101, R104). -/
theorem differUpdate_updatedOnce {n : Nat} (k : Kind) (i : Fin n) (u : BitVec k.width) (s : Block n) :
    UpdatedOnce s (differUpdate k i u s).1 := by
  intro k' j
  by_cases e : k' = k ∧ j = i
  · obtain ⟨rfl, rfl⟩ := e
    exact ⟨u, differUpdate_chan_same s k' j u⟩
  · exact exists_updated_of_eq (differUpdate_other s k i u k' j e)

/-- A message goes through the differ or is dropped (R165, R166). -/
theorem applyMsg_updatedOnce (k : Kind) (ch v : Int) (s : Block p.nCh) : UpdatedOnce s (applyMsg p k ch v s).1 := by
  unfold applyMsg
  split
  · exact differUpdate_updatedOnce k _ _ s
  · exact updatedOnce_of_sameTable (raise_chan _ s)

/-- DIFF is one differ update where it completes (R105). -/
theorem diffBlock_updatedOnce {k : Kind} {idx : Nat} {v : Int} {s : Block p.nCh} {x}
    (hx : diffBlock p k idx v s = .ok x) : UpdatedOnce s x.1 := by
  unfold diffBlock at hx
  split at hx <;> cases hx
  exact differUpdate_updatedOnce k _ _ s

/-- The parser writes channels through one differ update only, that of the message it applies (R165 to R167). -/
theorem parseWith_updatedOnce {dec : List Byte → FrameDecode} {s : Block p.nCh} {x}
    (hx : parseWith p dec s = .ok x) : UpdatedOnce s x.1 := by
  have release : SameTable s { s with msgReady := false } := sameTable_of_banks rfl rfl
  rcases parseWith_cases p dec s x hx with ⟨-, rfl⟩ | ⟨-, e, o, rfl⟩ | ⟨-, k, i, u, o, rfl⟩
  · exact updatedOnce_of_sameTable fun _ _ => rfl
  · exact .of_sameTable release (updatedOnce_of_sameTable (raise_chan e _))
  · exact .of_sameTable release (differUpdate_updatedOnce k i u _)

/-- The receiver writes no channel (R128 to R135). -/
theorem receiveAs_sameTable {n : Nat} {cls : ByteClass} {b : Byte} {s : Block n} {x}
    (hx : receiveAs cls b s = .ok x) : SameTable s x.1 := by
  obtain ⟨henc, hbtn⟩ := receiveAs_table cls b s x hx
  exact sameTable_of_banks henc hbtn

/-- POLL updates each channel at most once: its RXB writes none, its PARSE goes through the differ (R170). -/
theorem pollBlock_updatedOnce {byte : Option Byte} {s : Block p.nCh} {x} (hx : pollBlock p byte s = .ok x) :
    UpdatedOnce s x.1 := by
  unfold pollBlock at hx
  split at hx
  · split at hx
    · cases hx
    · next hr =>
      split at hx <;> cases hx
      next hp => exact .of_sameTable (receiveAs_sameTable hr) (parseWith_updatedOnce hp)
  · split at hx <;> cases hx
    next hp => exact parseWith_updatedOnce hp

/-- SNAP's loop over a bank updates each channel at most once (R190). -/
theorem snapBank_updatedOnce (k : Kind) (f : Nat → Int) (s : Block p.nCh) :
    UpdatedOnce s (snapBank p k f Config.busChannels s).1 := by
  intro k' i
  rw [(snapBank_spec p k f Config.busChannels (Nat.le_refl 4) s).1 k' i]
  split
  · exact ⟨_, rfl⟩
  · exact exists_updated_of_eq rfl

/-- SNAP's loop over a bank leaves the other bank (R190). -/
theorem snapBank_chan_other {k k' : Kind} (h : k' ≠ k) (f : Nat → Int) (s : Block p.nCh) (i : Fin p.nCh) :
    (snapBank p k f Config.busChannels s).1.chan k' i = s.chan k' i := by
  rw [(snapBank_spec p k f Config.busChannels (Nat.le_refl 4) s).1 k' i]
  exact dif_neg fun e => h e.1

/-- SNAP updates each channel at most once: an encoder in its first loop, a button in its second (R190). -/
theorem snapBlock_updatedOnce {len : Nat} {r : SnapData} {s : Block p.nCh} {x} (hx : snapBlock p len r s = .ok x) :
    UpdatedOnce s x.1 := by
  unfold snapBlock at hx
  split at hx
  · cases hx
  split at hx <;> cases hx
  · exact updatedOnce_of_sameTable (raise_chan _ s)
  · intro k i
    cases k with
    | encoder =>
      rw [snapBank_chan_other (k' := .encoder) (by decide)]
      exact snapBank_updatedOnce .encoder _ s .encoder i
    | button =>
      rw [← snapBank_chan_other (k := .encoder) (k' := .button) (by decide) (replyEnc p r) s i]
      exact snapBank_updatedOnce .button _ _ .button i

/-- Every operation but DRAIN updates each channel at most once and writes it no other way (R33, R101). -/
theorem blockOp_updatedOnce {i : Instr} {r : SnapData} {s : Block p.nCh} {y : Block p.nCh × Resp p.nCh}
    (hi : i ≠ .drain) (hy : blockOp p i r s = .ok y) : UpdatedOnce s y.1 := by
  have same {t : Block p.nCh} (h : t = s) : UpdatedOnce s t := h ▸ updatedOnce_of_sameTable fun _ _ => rfl
  cases i with
  | drain => exact absurd rfl hi
  | nop | rdstat => cases hy; exact same rfl
  | reservedAB | reservedCF => cases hy
  | rxb | term | noiseNul | noiseLf | noiseCr | ord =>
    exact record_block (fun _ hx => updatedOnce_of_sameTable (receiveAs_sameTable hx)) hy
  | parse | encoderUpdate | buttonUpdate | unknownKind => exact record_block (fun _ => parseWith_updatedOnce) hy
  | poll b => exact record_block (fun _ => pollBlock_updatedOnce) (show pollOp p b s = .ok y from hy)
  | pollNb => exact record_block (fun _ => pollBlock_updatedOnce) (show pollNbOp p s = .ok y from hy)
  | apply => cases hy; exact applyMsg_updatedOnce _ _ _ s
  | diff k idx imm => exact record_block (fun _ => diffBlock_updatedOnce) (show diffOp p k idx imm s = .ok y from hy)
  | snap n => exact record_block (fun _ => snapBlock_updatedOnce) (show snapOp p n r s = .ok y from hy)
  | read k idx =>
    exact same (record_block (P := (· = s)) (fun _ => readBlock_block) (show readOp p k idx s = .ok y from hy))

/-- Settles O48: DRAIN clears the flag and nothing else of a channel; every other operation updates the channel at most
once, and the clauses are what one update does. -/
theorem changedFlagSticky : Obligations.ChangedFlagSticky := by
  refine ⟨fun i s t ht k j => ?_, fun k j => congrArg Chan.chg (resetStep_chan (Block.zero Config.isc.nCh) k j)⟩
  obtain ⟨y, hy, rfl⟩ := exec_next ht
  by_cases hi : i = .drain
  · subst hi
    cases hy
    simp [drain_chan]
  · obtain ⟨u, hu⟩ := blockOp_updatedOnce hi hy k j
    simp only [hu]
    refine ⟨fun _ => updated_chg _ u, fun h => absurd h hi, chg_of_updated, fun hne => ?_, fun heq => ?_⟩
    · rw [updated_cur] at hne
      simp [updated_of_ne hne]
    · rw [updated_cur] at heq
      rw [heq, updated_self]

end Sys2Proof.Machine
end

section
/-! PROOFS of the family 20_memory. The receiver in every state, reachable or not (R51, R129, R281), DRAIN after DRAIN
(R58, R194), and the faults an operation can answer under the invariant (R27, R51, R281). -/

namespace Sys2Proof.Machine

variable {p : Params} {n : Nat}

/-! ### The receiver in every state -/

/-- RXB of a byte and the serial row of that byte are the receiver taking it (R71, R127, R136). -/
theorem blockOp_of_serial {b : Byte} {i : Instr} (hi : i ∈ [Instr.rxb b, decodeSerial b]) (r : SnapData)
    (s : Block p.nCh) : blockOp p i r s = record .rxb (receive b s) := by
  rcases List.mem_pair.mp hi with rfl | rfl
  · rfl
  · unfold decodeSerial
    split_ifs with hsemi hnul hlf hcr
    · subst hsemi; rfl
    · subst hnul; rfl
    · subst hlf; rfl
    · subst hcr; rfl
    · have hb : classify b = .ord := by simp [classify, hsemi, hnul, hlf, hcr]
      rw [receive, hb]
      rfl

/-- Recording an error writes its code and its own counter (R241). -/
theorem raise_errorRecorded (e : ErrorKind) (s : Block n) : ErrorRecorded e s (raise e s) := by
  cases e <;> simp [ErrorRecorded, raise]

/-- The receiver's writes fall inside the buffer, so a canonical buffer stays canonical (R51). -/
theorem receiveAs_keeps_wf {cls : ByteClass} {b : Byte} {s : Block n} {x : Block n × RxOut}
    (hx : receiveAs cls b s = .ok x) (h : s.fb.wf = true) : x.1.fb.wf = true := by
  rcases receiveAs_cases cls b s with ⟨-, e⟩ | ⟨-, -, e⟩ | ⟨-, -, -, e⟩ | ⟨-, -, -, -, e⟩ | ⟨-, hlen, -, -, e⟩ |
    ⟨-, hlen, -, -, e⟩ <;> cases hx.symm.trans e
  · exact h
  · simpa using h
  · exact h
  · exact write_keeps_wf _ h 0 (by decide) b
  · exact write_keeps_wf _ h _ (show _ < 32 by omega) b
  · exact write_keeps_wf _ (write_keeps_wf _ h _ (show _ < 32 by omega) _) _ (show _ < 32 by omega) _

/-- The receiver records `TransportOverflow` exactly when it answers an overflow, and no other error (R129). -/
theorem receiveAs_errors {cls : ByteClass} {b : Byte} {s : Block n} {x : Block n × RxOut}
    (hx : receiveAs cls b s = .ok x) :
    (x.2.overflow = false → SameErrors s x.1) ∧
    (x.2.overflow = true → ErrorRecorded .transportOverflow s x.1) := by
  rcases receiveAs_cases cls b s with ⟨-, e⟩ | ⟨-, -, e⟩ | ⟨-, -, -, e⟩ | ⟨-, -, -, -, e⟩ | ⟨-, -, -, -, e⟩ |
    ⟨-, -, -, -, e⟩ <;> cases hx.symm.trans e
  case inr.inl =>
    exact ⟨nofun, fun _ => raise_errorRecorded .transportOverflow { s with rxLen := 0, rxState := .idle }⟩
  all_goals exact ⟨fun _ => ⟨rfl, rfl, rfl, rfl, rfl, rfl⟩, nofun⟩

/-- Settles O8: RXB and the serial rows are the receiver, which faults in no state; its rows say what it writes. -/
theorem receiverCompletesInEveryState : Obligations.ReceiverCompletesInEveryState := by
  intro b s i hi
  obtain ⟨x, hx⟩ := receiveAs_ok (classify b) b s.block
  have hop : blockOp Config.isc i s.snapData s.block = .ok (x.1, .rxb x.2) := by
    rw [blockOp_of_serial hi, receive, hx, record_ok]
  obtain ⟨hsame, hrecorded⟩ := receiveAs_errors hx
  exact ⟨_, x.2, exec_of_blockOp hop, rfl, receiveAs_sameTable hx, ⟨rfl, rfl⟩, receiveAs_keeps_wf hx, hsame, hrecorded⟩

/-! ### DRAIN after DRAIN -/

/-- A bank with its flags cleared has an empty mask (R194). -/
@[simp] theorem chgMask_clearChg {w : Nat} (v : Vector (Chan w) n) : chgMask (clearChg v) = 0 := by
  apply BitVec.eq_of_getLsbD_eq
  intro i hi
  rw [chgMask_bit _ i hi, clearChg_get v i hi, BitVec.ofNat_eq_ofNat, BitVec.getLsbD_zero]

/-- Clearing the flags of a bank twice is clearing them once (R194). -/
@[simp] theorem clearChg_clearChg {w : Nat} (v : Vector (Chan w) n) : clearChg (clearChg v) = clearChg v := by
  ext i hi : 1
  rw [clearChg_get _ i hi, clearChg_get v i hi]

/-- DRAIN on what a DRAIN left returns empty masks and writes nothing (R58). -/
theorem drainBlock_drainBlock (s : Block n) : drainBlock (drainBlock s).1 = ((drainBlock s).1, (0, 0)) := by
  simp [drainBlock]

/-- Settles O30: the first DRAIN leaves the drained block, on which a second one does nothing. -/
theorem secondDrainEmpty : Obligations.SecondDrainEmpty := by
  intro s t ht
  obtain ⟨y, hy, rfl⟩ := exec_next ht
  cases hy
  have hop : drainOp (drainBlock s.block).1 = .ok ((drainBlock s.block).1, .drain 0 0) := by
    rw [drainOp, drainBlock_drainBlock, record_ok]
  rw [exec_blockOp]
  exact congrArg (complete _) hop

/-! ### The faults of the operations -/

/-- A recorded result faults only where the result does. -/
theorem record_eq_error {α : Type} {out : α → Resp n} {r : Except Fault (Block n × α)} {f : Fault}
    (h : record out r = .error f) : r = .error f := by
  cases r with
  | ok x => cases h
  | error e => exact congrArg Except.error (Except.error.inj h)

/-- The one fault of DIFF (R105). -/
theorem diffBlock_fault {k : Kind} {idx : Nat} {v : Int} {s : Block p.nCh} {f : Fault}
    (h : diffBlock p k idx v s = .error f) : f = .diffIndexOutOfRange := by
  unfold diffBlock at h
  split at h <;> cases h
  rfl

/-- The one fault of READ (R196). -/
theorem readBlock_fault {k : Kind} {idx : Nat} {s : Block p.nCh} {f : Fault}
    (h : readBlock p k idx s = .error f) : f = .readIndexOutOfRange := by
  unfold readBlock at h
  split at h <;> cases h
  rfl

/-- The one fault of SNAP (R190). -/
theorem snapBlock_fault {len : Nat} {r : SnapData} {s : Block p.nCh} {f : Fault}
    (h : snapBlock p len r s = .error f) : f = .snapLengthOver9 := by
  unfold snapBlock at h
  split at h
  · cases h; rfl
  · split at h <;> cases h

/-- Under the invariant every fault of an operation is a host fault (R243): the receiver completes in every state, and
the parser finds the terminator of a held frame (R28, R51). -/
theorem blockOp_fault {i : Instr} {r : SnapData} {s : Block p.nCh} {f : Fault} (h : s.Inv)
    (hf : blockOp p i r s = .error f) :
    f ∈ [Fault.reservedOpcode, .snapLengthOver9, .diffIndexOutOfRange, .readIndexOutOfRange] := by
  have completes {y : Block p.nCh × Resp p.nCh} (hy : blockOp p i r s = .ok y) : False := by
    rw [hy] at hf; cases hf
  have receiver {cls : ByteClass} {b : Byte} (hop : blockOp p i r s = record .rxb (receiveAs cls b s)) : False := by
    obtain ⟨x, hx⟩ := receiveAs_ok cls b s
    exact completes (hop.trans (congrArg (record .rxb) hx))
  have parser {b : Byte} (hi : i ∈ [Instr.parse, .pollNb, .encoderUpdate, .buttonUpdate, .unknownKind b]) : False := by
    obtain ⟨dec, hdec⟩ := blockOp_of_parseWith (p := p) hi
    obtain ⟨x, hx⟩ := parseWith_completes p dec s h
    obtain ⟨o, ho⟩ := hdec r s x hx
    exact completes ho
  cases i with
  | nop | rdstat | drain | apply => cases hf
  | reservedAB | reservedCF => cases hf; simp
  | rxb | term | noiseNul | noiseLf | noiseCr | ord => exact (receiver rfl).elim
  | parse | pollNb | encoderUpdate | buttonUpdate => exact (parser (b := 0) (by simp)).elim
  | unknownKind b => exact (parser (b := b) (by simp)).elim
  | poll b =>
    obtain ⟨x, hx, -⟩ := pollOp_total b h
    exact (completes hx).elim
  | diff k idx imm => simp [diffBlock_fault (record_eq_error (show diffOp p k idx imm s = .error f from hf))]
  | snap len => simp [snapBlock_fault (record_eq_error (show snapOp p len r s = .error f from hf))]
  | read k idx => simp [readBlock_fault (record_eq_error (show readOp p k idx s = .error f from hf))]

/-- Settles O52: a fault is the operation's own, which under the invariant is a host fault; no arm is refused. -/
theorem noAccessOutsideBuffer : Obligations.NoAccessOutsideBuffer := by
  intro i s hs
  rw [exec_blockOp]
  refine ⟨fun hf => ?_, complete_not_refused s _⟩
  have hmem := blockOp_fault hs (complete_fault hf)
  simp at hmem

end Sys2Proof.Machine
end

section
/-! PROOFS of the family 30_encoding. Command words as the codes of instructions (R88 to R92), the rows of the opcode
table (R89), the body grammar (R72 to R77), the step that runs a command (R82, R83), and frames sent byte by byte by
POLL (R94). -/

namespace Sys2Proof

open Laws.RowMatch (inRow Statement)

/-! ### The fields of a word -/

@[simp] theorem low_byte_imm (b : Byte) : BitVec.extractLsb' (n := 16) 0 8 (0#8 ++ b) = b :=
  BitVec.extractLsb'_append_eq_right (a := 0#8)

@[simp] theorem high_byte_imm (b : Byte) : BitVec.extractLsb' (n := 16) 8 8 (0#8 ++ b) = 0#8 :=
  BitVec.extractLsb'_append_eq_left (b := b)

@[simp] theorem low_nibble_imm (n : BitVec 4) : BitVec.extractLsb' (n := 16) 0 4 (0#12 ++ n) = n :=
  BitVec.extractLsb'_append_eq_right (a := 0#12)

@[simp] theorem above_nibble_imm (n : BitVec 4) : BitVec.extractLsb' (n := 16) 4 12 (0#12 ++ n) = 0#12 :=
  BitVec.extractLsb'_append_eq_left (b := n)

/-- An `IMM` whose high byte is 0 is its low byte above zeros (R88, RXB and POLL). -/
theorem byte_imm {imm : BitVec 16} (h : imm.extractLsb' 8 8 = 0) : 0#8 ++ imm.extractLsb' 0 8 = imm := by
  have hparts := BitVec.extractLsb'_append_extractLsb' (w := 8) (len := 8) (x := imm)
  rwa [h] at hparts

/-- An `IMM` whose bits above the nibble are 0 is its nibble above zeros (R88, SNAP). -/
theorem nibble_imm {imm : BitVec 16} (h : imm.extractLsb' 4 12 = 0) : 0#12 ++ imm.extractLsb' 0 4 = imm := by
  have hparts := BitVec.extractLsb'_append_extractLsb' (w := 12) (len := 4) (x := imm)
  rwa [h] at hparts

@[simp] theorem toWord_k (f : CmdFields) : f.toWord.extractLsb' 27 1 = f.k := congrArg CmdFields.k (ofWord_toWord f)

@[simp] theorem toWord_idx (f : CmdFields) : f.toWord.extractLsb' 16 8 = f.idx :=
  congrArg CmdFields.idx (ofWord_toWord f)

@[simp] theorem toWord_imm (f : CmdFields) : f.toWord.extractLsb' 0 16 = f.imm :=
  congrArg CmdFields.imm (ofWord_toWord f)

/-- The low bits of a word are those of its `IMM` (R88). -/
theorem toWord_low (f : CmdFields) {n : Nat} (h : n ≤ 16) : f.toWord.extractLsb' 0 n = f.imm.extractLsb' 0 n := by
  rw [← toWord_imm, BitVec.extractLsb'_extractLsb'_of_le (by omega)]

/-- The top bits of a word are those of its `OP` (R88). -/
theorem extract_top (w : CmdWord) {s n : Nat} (h : s + n = 4) :
    w.extractLsb' (28 + s) n = (CmdFields.ofWord w).op.extractLsb' s n := by
  ext i hi
  simp [CmdFields.ofWord, Nat.add_assoc]
  omega

/-! ### Reserved words -/

/-- A word starts with 101 when its `OP` is 0xA or 0xB (R90). -/
theorem starts_101_iff {w : CmdWord} : w.extractLsb' 29 3 = 0b101#3 ↔
    (CmdFields.ofWord w).op.toNat = 10 ∨ (CmdFields.ofWord w).op.toNat = 11 := by
  rw [extract_top w (s := 1) rfl]
  generalize (CmdFields.ofWord w).op = op
  revert op
  decide

/-- A word starts with 11 when its `OP` is 0xC or above (R90). -/
theorem starts_11_iff {w : CmdWord} : w.extractLsb' 30 2 = 0b11#2 ↔ 12 ≤ (CmdFields.ofWord w).op.toNat := by
  rw [extract_top w (s := 2) rfl]
  generalize (CmdFields.ofWord w).op = op
  revert op
  decide

theorem decodeCmd_starts_101 {w : CmdWord} (h : w.extractLsb' 29 3 = 0b101#3) :
    decodeCmd w = .ok (.reservedAB (w.extractLsb' 0 29)) := by
  rcases starts_101_iff.mp h with hop | hop <;> simp [decodeCmd, hop]

theorem decodeCmd_starts_11 {w : CmdWord} (h : w.extractLsb' 30 2 = 0b11#2) :
    decodeCmd w = .ok (.reservedCF (w.extractLsb' 0 30)) := by
  have hop := starts_11_iff.mp h
  unfold decodeCmd
  dsimp only
  split
  case h_13 => rfl
  all_goals omega

/-- A word with `OP` 0xA or above is the code of a RESERVED row (R90). -/
theorem encode_reserved {w : CmdWord} (h : 10 ≤ (CmdFields.ofWord w).op.toNat) :
    (∃ low, encode (.reservedAB low) = .cmd w) ∨ ∃ low, encode (.reservedCF low) = .cmd w := by
  rcases Nat.lt_or_ge (CmdFields.ofWord w).op.toNat 12 with hlt | hge
  · have htop := (starts_101_iff (w := w)).mpr (by omega)
    have hparts := BitVec.extractLsb'_append_extractLsb' (w := 3) (len := 29) (x := w)
    exact .inl ⟨w.extractLsb' 0 29, congrArg Code.cmd (htop ▸ hparts)⟩
  · have htop := (starts_11_iff (w := w)).mpr hge
    have hparts := BitVec.extractLsb'_append_extractLsb' (w := 2) (len := 30) (x := w)
    exact .inr ⟨w.extractLsb' 0 30, congrArg Code.cmd (htop ▸ hparts)⟩

/-! ### Command words are codes of instructions -/

/-- Decoding the word of an instruction gives it back; the one rejection left is that of SNAP's length (R91). -/
theorem decodeCmd_of_encode {i : Instr} {w : CmdWord} (h : encode i = .cmd w) :
    decodeCmd w = if i.wf then .ok i else .error .snapLengthOver9 := by
  cases i with
  | nop | parse | pollNb | drain | rdstat => cases h; rfl
  | rxb | poll | apply | diff | read => cases h; simp [decodeCmd, cmdWord, decodeIf, Instr.wf]
  | snap => cases h; simp [decodeCmd, cmdWord, Instr.wf]
  | reservedAB low =>
    cases h
    rw [decodeCmd_starts_101 BitVec.extractLsb'_append_eq_left, BitVec.extractLsb'_append_eq_right]
    rfl
  | reservedCF low =>
    cases h
    rw [decodeCmd_starts_11 BitVec.extractLsb'_append_eq_left, BitVec.extractLsb'_append_eq_right]
    rfl
  | term | noiseNul | noiseLf | noiseCr | ord | encoderUpdate | buttonUpdate | unknownKind => cases h

/-- A guarded decoding rejects the word (R91), or the word is the code of its instruction if it is so under the
guard. -/
theorem decodeIf_encoded {c : Bool} {i : Instr} {w : CmdWord} (h : c = true → encode i = .cmd w) :
    decodeIf c i = .error .unusedField ∨ ∃ j, encode j = .cmd w := by
  cases c
  · exact .inl rfl
  · exact .inr ⟨i, h rfl⟩

/-- A word is rejected for a field that its operation does not use (R91), or it is the code of an instruction: the guard
of its `OP` says what the fields are, and the fields are the word. -/
theorem decodeCmd_encoded (w : CmdWord) : decodeCmd w = .error .unusedField ∨ ∃ i, encode i = .cmd w := by
  by_cases hres : 10 ≤ (CmdFields.ofWord w).op.toNat
  · rcases encode_reserved hres with ⟨low, h⟩ | ⟨low, h⟩ <;> exact .inr ⟨_, h⟩
  obtain ⟨⟨op, k, v, z, idx, imm⟩, rfl⟩ : ∃ f : CmdFields, f.toWord = w := ⟨_, toWord_ofWord w⟩
  simp only [decodeCmd, ofWord_toWord] at hres ⊢
  have hop {c : Nat} (h : op.toNat = c) : op = BitVec.ofNat 4 c := h ▸ (BitVec.ofNat_toNat 4 op).symm
  split
  case h_1 h | h_3 h | h_8 h | h_10 h =>
    refine decodeIf_encoded fun g => ?_
    obtain ⟨rfl, rfl, rfl, rfl, rfl⟩ := of_decide_eq_true g
    rw [hop h]
    rfl
  case h_2 h =>
    refine decodeIf_encoded fun g => ?_
    obtain ⟨rfl, rfl, rfl, rfl, himm⟩ := of_decide_eq_true g
    rw [encode, byte_imm himm, hop h]
    rfl
  case h_4 h =>
    split
    next hv =>
      refine decodeIf_encoded fun g => ?_
      obtain ⟨rfl, rfl, rfl, himm⟩ := of_decide_eq_true g
      rw [encode, byte_imm himm, hop h, hv]
      rfl
    next hv =>
      refine decodeIf_encoded fun g => ?_
      obtain ⟨rfl, rfl, rfl, rfl⟩ := of_decide_eq_true g
      rw [hop h, (BitVec.eq_zero_or_eq_one v).resolve_right hv]
      rfl
  case h_5 h | h_6 h =>
    refine decodeIf_encoded fun g => ?_
    obtain ⟨rfl, rfl⟩ := of_decide_eq_true g
    rw [encode, bit_ofBit, hop h]
    rfl
  case h_7 h =>
    split
    next g =>
      obtain ⟨rfl, rfl, rfl, rfl, himm⟩ := g
      exact .inr ⟨.snap (imm.extractLsb' 0 4), by rw [encode, nibble_imm himm, hop h]; rfl⟩
    next => exact .inl rfl
  case h_9 h =>
    refine decodeIf_encoded fun g => ?_
    obtain ⟨rfl, rfl, rfl⟩ := of_decide_eq_true g
    rw [encode, bit_ofBit, hop h]
    rfl
  case h_11 h | h_12 h => omega
  case h_13 => simp only [imp_false] at *; omega

/-- No bit of a command word is dropped (R88, R91). -/
theorem encode_of_decodeCmd {w : CmdWord} {i : Instr} (h : decodeCmd w = .ok i) : encode i = .cmd w := by
  rcases decodeCmd_encoded w with he | ⟨j, hj⟩
  · cases h.symm.trans he
  · rw [decodeCmd_of_encode hj] at h
    split at h <;> cases h
    exact hj

/-- The one instruction with a command word that is not well formed is SNAP with `n` above 9 (R81, R91). -/
theorem eq_snap_of_not_wf {i : Instr} {w : CmdWord} (hw : encode i = .cmd w) (hi : i.wf ≠ true) :
    ∃ n, i = .snap n ∧ 9 < n.toNat := by
  cases i with
  | snap n => exact ⟨n, rfl, by simpa [Instr.wf] using hi⟩
  | ord | unknownKind => cases hw
  | _ => exact absurd rfl hi

/-- The words rejected for their length are those of SNAP with `n` above 9 (R91). -/
theorem decodeCmd_overlong_iff {w : CmdWord} :
    decodeCmd w = .error .snapLengthOver9 ↔ ∃ n : BitVec 4, 9 < n.toNat ∧ encode (.snap n) = .cmd w := by
  constructor
  · intro h
    rcases decodeCmd_encoded w with he | ⟨i, hi⟩
    · cases h.symm.trans he
    · rw [decodeCmd_of_encode hi] at h
      split at h
      · cases h
      next hwf =>
        obtain ⟨n, rfl, hn⟩ := eq_snap_of_not_wf hi hwf
        exact ⟨n, hn, hi⟩
  · rintro ⟨n, hn, hw⟩
    rw [decodeCmd_of_encode hw, if_neg (by simpa [Instr.wf] using hn)]

/-- SNAP's word (R81, R89). -/
theorem encode_snap (n : BitVec 4) : encode (.snap n) = .cmd (BitVec.ofNat 32 (0x60000000 + n.toNat)) := by
  revert n
  decide

/-- The words rejected for their length as a range (R91). -/
theorem decodeCmd_overlong_iff_range {w : CmdWord} :
    decodeCmd w = .error .snapLengthOver9 ↔ 0x6000000A ≤ w.toNat ∧ w.toNat ≤ 0x6000000F := by
  simp only [decodeCmd_overlong_iff, encode_snap, Code.cmd.injEq]
  constructor
  · rintro ⟨n, hn, rfl⟩
    simp only [BitVec.toNat_ofNat]
    omega
  · rintro ⟨hlo, hhi⟩
    refine ⟨BitVec.ofNat 4 (w.toNat - 0x60000000), ?_, BitVec.eq_of_toNat_eq ?_⟩ <;>
      simp only [BitVec.toNat_ofNat] <;> omega

/-! ### Serial bytes and kind bytes are codes of instructions -/

/-- A byte of no exact serial row decodes to ORD (R71). -/
theorem decodeSerial_of_ord_wf {b : Byte} (h : (Instr.ord b).wf = true) : decodeSerial b = .ord b := by
  obtain ⟨hsemi, hnul, hlf, hcr⟩ := of_decide_eq_true h
  simp [decodeSerial, hsemi, hnul, hlf, hcr]

/-- What a serial byte decodes to is well formed and has that byte as its code (R71). -/
theorem encode_decodeSerial (b : Byte) : (decodeSerial b).wf = true ∧ encode (decodeSerial b) = .serial b := by
  unfold decodeSerial
  split_ifs with hsemi hnul hlf hcr
  · exact ⟨rfl, hsemi ▸ rfl⟩
  · exact ⟨rfl, hnul ▸ rfl⟩
  · exact ⟨rfl, hlf ▸ rfl⟩
  · exact ⟨rfl, hcr ▸ rfl⟩
  · exact ⟨decide_eq_true ⟨hsemi, hnul, hlf, hcr⟩, rfl⟩

/-- A byte of no exact kind row decodes to UnknownKind (R74). -/
theorem decodeKind_of_unknownKind_wf {b : Byte} (h : (Instr.unknownKind b).wf = true) :
    decodeKind b = .unknownKind b := by
  rw [decodeKind, (wf_unknownKind_iff b).mp h]

/-- What a kind byte decodes to is well formed and has that byte as its code (R74). -/
theorem encode_decodeKind (b : Byte) : (decodeKind b).wf = true ∧ encode (decodeKind b) = .kind b := by
  by_cases he : b = Ascii.lowerE
  · subst he; exact ⟨rfl, rfl⟩
  by_cases hl : b = Ascii.lowerB
  · subst hl; exact ⟨rfl, rfl⟩
  · have hwf : (Instr.unknownKind b).wf = true := decide_eq_true ⟨he, hl⟩
    rw [decodeKind_of_unknownKind_wf hwf]
    exact ⟨hwf, rfl⟩

/-- Settles O39: a command word by the decoder's answer on an instruction's word, the two bytes by their rows. -/
theorem decodeEncodeAgree : Obligations.DecodeEncodeAgree := by
  intro i hi
  cases i with
  | term | noiseNul | noiseLf | noiseCr | encoderUpdate | buttonUpdate => rfl
  | ord b => exact congrArg Except.ok (decodeSerial_of_ord_wf hi)
  | unknownKind b => exact congrArg Except.ok (decodeKind_of_unknownKind_wf hi)
  | _ => exact (decodeCmd_of_encode rfl).trans (if_pos hi)

/-- Settles O40: a word that is not rejected is the code of an instruction, and so is every byte. -/
theorem encodeDecodeAgree : Obligations.EncodeDecodeAgree := by
  intro c i h
  cases c with
  | cmd w => exact ⟨decodeCmd_wf h, encode_of_decodeCmd h⟩
  | serial b => cases h; exact encode_decodeSerial b
  | kind b => cases h; exact encode_decodeKind b

/-- Settles O41: the decoders run on the nine codes. -/
theorem specWordsDecode : Obligations.SpecWordsDecode := ⟨rfl, rfl, rfl, rfl, rfl, rfl, rfl, rfl, rfl⟩

/-- Settles O38: the word is the code of what it decodes to, whose fields are read back from it. -/
theorem operandsAreWordFields : Obligations.OperandsAreWordFields := by
  intro w i h
  have hwf := decodeCmd_wf h
  have hw := encode_of_decodeCmd h
  cases i with
  | rxb | poll | apply | diff | read => cases hw; simp [Machine.OperandsAreFields, cmdWord, toWord_low]
  | snap n => cases hw; exact ⟨by simp [cmdWord, toWord_low], of_decide_eq_true hwf⟩
  | _ => trivial

/-! ### The rows of the opcode table -/

/-- Every instruction's code is in its own row (R89, R90). -/
theorem encode_inRow (i : Instr) : Statement i := by
  open Laws.RowMatch in
  cases i
  exacts [nop, rxb _, parse, poll _, pollNb, apply .., diff .., snap _, drain, read .., rdstat, reservedAB _,
    reservedCF _, term, noiseNul, noiseLf, noiseCr, ord _, encoderUpdate, buttonUpdate, unknownKind _]

/-- The row of a command word's instruction is one of the table's, and the word matches it (R89). -/
theorem cmdRow_of_encode {i : Instr} {w : CmdWord} (h : encode i = .cmd w) :
    ∃ r ∈ cmdRows, i.cmdRow = some r ∧ r.matches w = true := by
  have hrow : inRow (.cmd w) i.cmdRow = true := h ▸ encode_inRow i
  cases hr : i.cmdRow with
  | none => rw [hr] at hrow; cases hrow
  | some r =>
    rw [hr] at hrow
    refine ⟨r, ?_, rfl, hrow⟩
    cases i <;> cases hr <;> simp [cmdRows]

/-- No two rows ask for the same bits where both their masks look (R89). -/
theorem cmdRows_agree : ∀ r ∈ cmdRows, ∀ r' ∈ cmdRows, r.value &&& r'.mask = r'.value &&& r.mask → r = r' := by
  decide

/-- A word matches at most one row (R89). -/
theorem row_unique {w : CmdWord} {r r' : CmdRow} (hr : r ∈ cmdRows) (hr' : r' ∈ cmdRows)
    (h : r.matches w = true) (h' : r'.matches w = true) : r = r' := by
  refine cmdRows_agree r hr r' hr' ?_
  rw [← of_decide_eq_true h, ← of_decide_eq_true h', BitVec.and_assoc, BitVec.and_assoc, BitVec.and_comm r.mask]

/-- A field that a row's mask covers has the row's value in every word that matches it (R89). -/
theorem field_of_matches {r : CmdRow} {w : CmdWord} (h : r.matches w = true) (s n : Nat)
    (hmask : r.mask.extractLsb' s n = BitVec.allOnes n) : w.extractLsb' s n = r.value.extractLsb' s n := by
  rw [← of_decide_eq_true h, BitVec.extractLsb'_and, hmask, BitVec.and_allOnes]

/-- A word that matches a row has 0 in every field its operation does not use: the row's mask covers `OP` and what the
guard of that `OP` asks for (R89, R91). -/
theorem decodeCmd_ne_unusedField_of_matches {r : CmdRow} {w : CmdWord} (hr : r ∈ cmdRows) (h : r.matches w = true) :
    decodeCmd w ≠ .error .unusedField := by
  have field := field_of_matches h
  simp only [cmdRows, List.mem_cons, List.not_mem_nil, or_false] at hr
  rcases hr with rfl | rfl | rfl | rfl | rfl | rfl | rfl | rfl | rfl | rfl | rfl | rfl | rfl
  on_goal 13 => rw [decodeCmd_starts_11 (field 30 2 rfl)]; nofun
  on_goal 12 => rw [decodeCmd_starts_101 (field 29 3 rfl)]; nofun
  all_goals simp [decodeCmd, CmdFields.ofWord, decodeIf, field, BitVec.extractLsb'_extractLsb'_of_le]
  split <;> nofun

/-- Settles O37: a word is rejected for an unused field or is the code of an instruction, which is in one row. -/
theorem wordsSelectRows : Obligations.WordsSelectRows := by
  refine fun w => ⟨fun i h => cmdRow_of_encode (encode_of_decodeCmd h), fun r hr h => ?_,
    fun r hr r' hr' h h' => row_unique hr hr' h h'⟩
  obtain ⟨i, hi⟩ := (decodeCmd_encoded w).resolve_left (decodeCmd_ne_unusedField_of_matches hr h)
  obtain ⟨r', hr', hrow, h'⟩ := cmdRow_of_encode hi
  obtain rfl := row_unique hr' hr h' h
  have hdec := decodeCmd_of_encode hi
  by_cases hwf : i.wf = true
  · exact .inl ⟨i, hdec.trans (if_pos hwf), hrow⟩
  · rw [if_neg hwf] at hdec
    exact .inr ⟨hdec, decodeCmd_overlong_iff_range.mp hdec⟩

end Sys2Proof

namespace Sys2Proof.Machine

variable {p : Params} {n : Nat}

/-! ### Running a command word -/

theorem runCmd_of_ok {w : CmdWord} {i : Instr} (h : decodeCmd w = .ok i) (s : State) : runCmd w s = exec i s := by
  simp [runCmd, runCmdBy, h]

theorem runCmd_of_error {w : CmdWord} {e : DecodeError} (h : decodeCmd w = .error e) (s : State) :
    runCmd w s = .fault (hostFaultOf e) := by
  simp [runCmd, runCmdBy, h]

/-- Settles O36: a word that is not rejected for an unused field is the code of an instruction, whose row it matches. -/
theorem unusedFieldsFault : Obligations.UnusedFieldsFault := by
  refine fun w s => ⟨fun _ hrows => ?_, fun hlo hhi => ?_⟩
  · rcases decodeCmd_encoded w with he | ⟨i, hi⟩
    · exact runCmd_of_error he s
    · obtain ⟨r, hr, -, h⟩ := cmdRow_of_encode hi
      cases (hrows r hr).symm.trans h
  · exact runCmd_of_error (decodeCmd_overlong_iff_range.mpr ⟨hlo, hhi⟩) s

/-- `OP` is the word without its low 28 bits (R88). -/
theorem op_toNat (w : CmdWord) : (CmdFields.ofWord w).op.toNat = w.toNat / 2 ^ 28 := by
  have hop : (CmdFields.ofWord w).op = w.extractLsb' 28 4 := rfl
  rw [hop, BitVec.extractLsb'_toNat, Nat.shiftRight_eq_div_pow]
  omega

/-- Settles O35: a word with `OP` in 0xA..0xF is the code of a RESERVED row; NOP's only code is the word 0. -/
theorem reservedWordsFault : Obligations.ReservedWordsFault := by
  refine fun s => ⟨fun w hw => ?_, fun _ => rfl, fun _ => rfl, fun w h => ?_⟩
  · have hop : 10 ≤ (CmdFields.ofWord w).op.toNat := by rw [op_toNat]; omega
    rcases encode_reserved hop with ⟨low, h⟩ | ⟨low, h⟩ <;>
      exact runCmd_of_ok (decodeCmd_of_encode h) s
  · exact (Code.cmd.inj (encode_of_decodeCmd h)).symm

/-- Settles O28: the operation and the decoder both check the length. -/
theorem snapOverlongFaults : Obligations.SnapOverlongFaults := by
  refine fun n s hn => ⟨?_, runCmd_of_error (decodeCmd_overlong_iff.mpr ⟨n, hn, encode_snap n⟩) s⟩
  have hblock : snapBlock Config.isc n.toNat s.snapData s.block = .error .snapLengthOver9 := if_pos hn
  rw [exec_blockOp, blockOp, snapOp, hblock, record_error, complete_error]

/-- A step with something on the ports takes the oldest input (R83). -/
theorem step_of_inputs {s : State} {x : PortInput} {rest : List PortInput} (h : s.inputs = x :: rest) :
    step s = runInput x { s with inputs := rest, snapData := x.snapData } := by
  simp [step, takeInput, h]

/-- Settles O42: a step takes the oldest input, and `rst` and the command say what is done with it. -/
theorem stepRunsDecodedCommand : Obligations.StepRunsDecodedCommand := by
  refine fun s => ⟨fun x rest w hs hrst hcmd => ?_, fun x rest hs hrst hcmd => ?_, fun x rest w hs hrst hcmd => ?_,
    fun hs => ?_, fun w i h => ?_⟩
  · have hrun : step s = runCmd w { s with inputs := rest, snapData := x.snapData } := by
      simp [step_of_inputs hs, runInput, runInputBy, hrst, hcmd, runCmd]
    exact ⟨fun i h => hrun.trans (runCmd_of_ok h _), fun e h => hrun.trans (runCmd_of_error h _)⟩
  · simp [step_of_inputs hs, runInput, runInputBy, hrst, hcmd]
  · simp [step_of_inputs hs, runInput, runInputBy, hrst, hcmd]
  · simp [step, takeInput, hs]
  · rw [step_withFetchWord, BitVec.ofNat_toNat, BitVec.setWidth_eq, runCmd_of_ok h]

/-! ### Decimal values -/

/-- One more digit (R77). -/
theorem decval_append (ds : List Byte) (d : Byte) : decval (ds ++ [d]) = decval ds * 10 + (d.toNat - 0x30) := by
  simp [decval]

/-- One more digit raises the power of every other one (R77). -/
theorem digitSum_append (ds : List Byte) (d : Byte) : digitSum (ds ++ [d]) = digitSum ds * 10 + (d.toNat - 0x30) := by
  have hlast : (ds ++ [d]).getD ds.length 0 = d := by simp
  have hraise : ∀ j ∈ List.range ds.length,
      (((ds ++ [d]).getD j 0).toNat - 0x30) * 10 ^ ((ds ++ [d]).length - 1 - j) =
        ((ds.getD j 0).toNat - 0x30) * 10 ^ (ds.length - 1 - j) * 10 := by
    intro j hj
    have hlt : j < ds.length := List.mem_range.mp hj
    have hpow : (ds ++ [d]).length - 1 - j = ds.length - 1 - j + 1 := by simp; omega
    rw [List.getD_append _ _ _ _ hlt, hpow, Nat.pow_succ, Nat.mul_assoc]
  unfold digitSum
  rw [List.length_append, List.length_singleton, List.range_succ, List.map_append, List.sum_append]
  rw [List.length_append, List.length_singleton] at hraise
  rw [List.map_congr_left hraise, List.sum_map_mul_right, List.map_singleton, hlast]
  simp

/-- Settles O18, by induction on the digits from the last one. -/
theorem decimalValueIsDigitSum : Obligations.DecimalValueIsDigitSum := by
  intro ds
  induction ds using List.reverseRecOn with
  | nil => rfl
  | append_singleton ds d ih => rw [decval_append, digitSum_append, ih]

/-! ### The body grammar -/

theorem isDigit_iff (b : Byte) : isDigit b = true ↔ 0x30 ≤ b.toNat ∧ b.toNat ≤ 0x39 := by
  simp [isDigit, BitVec.le_def]

/-- `1*DIGIT` is decided, with its value (R72, R77). -/
theorem parseDigits_eq_some_iff {ds : List Byte} {n : Nat} :
    parseDigits ds = some n ↔ IsDigits ds ∧ digitSum ds = n := by
  rw [parseDigits, decimalValueIsDigitSum ds]
  simp [IsDigits, isDigit_iff]

/-- The bytes of an `INT` (R72). -/
theorem IsInt.bytes {s : List Byte} {v : Int} (h : IsInt s v) :
    ∀ b ∈ s, b = Ascii.minus ∨ (0x30 ≤ b.toNat ∧ b.toNat ≤ 0x39) := by
  cases h with
  | plain _ hds => exact fun b hb => .inr (hds.2 b hb)
  | minus ds hds => exact List.forall_mem_cons.mpr ⟨.inl rfl, fun b hb => .inr (hds.2 b hb)⟩

theorem parseInt_minus (ds : List Byte) :
    parseInt (Ascii.minus :: ds) = Option.map (fun n : Nat => -(n : Int)) (parseDigits ds) := by
  cases h : parseDigits ds <;> simp [parseInt, h]

theorem parseInt_of_ne_minus {c : Byte} (hc : c ≠ Ascii.minus) (ds : List Byte) :
    parseInt (c :: ds) = Option.map (fun n : Nat => (n : Int)) (parseDigits (c :: ds)) := by
  cases h : parseDigits (c :: ds) <;> simp [parseInt, hc, h]

/-- `INT` is decided, with its value (R72, R77). -/
theorem parseInt_eq_some_iff {s : List Byte} {v : Int} : parseInt s = some v ↔ IsInt s v := by
  constructor
  · intro h
    cases s with
    | nil => cases h
    | cons c ds =>
      by_cases hc : c = Ascii.minus
      · subst hc
        rw [parseInt_minus] at h
        obtain ⟨n, hn, rfl⟩ := Option.map_eq_some_iff.mp h
        obtain ⟨hds, rfl⟩ := parseDigits_eq_some_iff.mp hn
        exact .minus ds hds
      · rw [parseInt_of_ne_minus hc] at h
        obtain ⟨n, hn, rfl⟩ := Option.map_eq_some_iff.mp h
        obtain ⟨hds, rfl⟩ := parseDigits_eq_some_iff.mp hn
        exact .plain (c :: ds) hds
  · intro h
    cases h with
    | plain _ hds =>
      obtain ⟨hne, hdigit⟩ := hds
      obtain ⟨c, ds, rfl⟩ := List.exists_cons_of_ne_nil hne
      have hc : c ≠ Ascii.minus := by
        rintro rfl
        exact absurd (hdigit _ List.mem_cons_self) (by decide)
      rw [parseInt_of_ne_minus hc, parseDigits_eq_some_iff.mpr ⟨⟨hne, hdigit⟩, rfl⟩, Option.map_some]
    | minus ds hds => rw [parseInt_minus, parseDigits_eq_some_iff.mpr ⟨hds, rfl⟩, Option.map_some]

/-- No `INT` holds a `':'` (R76). -/
theorem IsInt.colon_notMem {s : List Byte} {v : Int} (h : IsInt s v) : Ascii.colon ∉ s := by
  intro hmem
  exact absurd (h.bytes _ hmem) (by decide)

/-- A body without a `':'` is malformed (R75). -/
theorem decodeBody_of_colon_notMem {body : List Byte} (h : Ascii.colon ∉ body) : decodeBody body = none := by
  have hdrop : body.dropWhile (fun b => b ≠ Ascii.colon) = [] :=
    List.dropWhile_eq_nil_iff.mpr fun b hb => decide_eq_true fun e => h (e ▸ hb)
  rw [decodeBody, hdrop]

/-- The first `':'` splits a body into its two fields (R75, R76). -/
theorem decodeBody_split {s1 s2 : List Byte} (h : Ascii.colon ∉ s1) (ch v : Int) :
    decodeBody (s1 ++ Ascii.colon :: s2) = some (ch, v) ↔ parseInt s1 = some ch ∧ parseInt s2 = some v := by
  have hbefore : ∀ b ∈ s1, decide (b ≠ Ascii.colon) = true := fun b hb => decide_eq_true fun e => h (e ▸ hb)
  rw [decodeBody, List.dropWhile_append_of_pos hbefore, List.takeWhile_append_of_pos hbefore,
    List.dropWhile_cons_of_neg (by decide), List.takeWhile_cons_of_neg (by decide), List.append_nil]
  dsimp only
  cases parseInt s1 <;> cases parseInt s2 <;> simp

/-- Settles O17: the decoder splits at the first `':'`, and since no `INT` holds one the grammar splits there too. -/
theorem bodyGrammarDecided : Obligations.BodyGrammarDecided := by
  intro body ch v
  constructor
  · intro h
    by_cases hmem : Ascii.colon ∈ body
    · obtain ⟨s1, s2, rfl, hs1⟩ := List.eq_append_cons_of_mem hmem
      obtain ⟨h1, h2⟩ := (decodeBody_split hs1 ch v).mp h
      exact ⟨s1, s2, rfl, parseInt_eq_some_iff.mp h1, parseInt_eq_some_iff.mp h2⟩
    · cases (decodeBody_of_colon_notMem hmem).symm.trans h
  · rintro ⟨s1, s2, rfl, h1, h2⟩
    exact (decodeBody_split h1.colon_notMem ch v).mpr
      ⟨parseInt_eq_some_iff.mpr h1, parseInt_eq_some_iff.mpr h2⟩

/-! ### Several operations in order -/

/-- The first operation, then the others on the state it leaves (R61). -/
theorem execAll_cons {i : Instr} {is : List Instr} {s t : State} (h : exec i s = .next t) :
    execAll (i :: is) s = execAll is t := by
  simp [execAll, h]

/-- What completes has a first operation that does (R61). -/
theorem execAll_cons_next {i : Instr} {is : List Instr} {s t : State} (h : execAll (i :: is) s = .next t) :
    ∃ u, exec i s = .next u ∧ execAll is u = .next t := by
  cases hi : exec i s with
  | next u => exact ⟨u, rfl, by rwa [execAll_cons hi] at h⟩
  | fault f => simp [execAll, hi] at h
  | refused q => simp [execAll, hi] at h

/-- What completes is followed by the rest (R61). -/
theorem execAll_append {is js : List Instr} {s t : State} (h : execAll is s = .next t) :
    execAll (is ++ js) s = execAll js t := by
  induction is generalizing s with
  | nil => cases h; rfl
  | cons i is ih =>
    obtain ⟨u, hi, hrest⟩ := execAll_cons_next h
    rw [List.cons_append, execAll_cons hi, ih hrest]

/-- No sequence of operations touches the ports (R61). -/
theorem execAll_keeps_ports {is : List Instr} {s t : State} (h : execAll is s = .next t) : SamePorts s t := by
  induction is generalizing s with
  | nil => cases h; exact ⟨rfl, rfl⟩
  | cons i is ih =>
    obtain ⟨u, hi, hrest⟩ := execAll_cons_next h
    obtain ⟨hdata, hinputs⟩ := exec_keeps_ports hi
    obtain ⟨hdata', hinputs'⟩ := ih hrest
    exact ⟨hdata'.trans hdata, hinputs'.trans hinputs⟩

/-! ### A SEND does not hold -/

/-- With no frame held the receiver takes its byte (R128). -/
theorem receiveAs_accepts {cls : ByteClass} {b : Byte} {s : Block n} {x : Block n × RxOut}
    (hready : s.msgReady = false) (hx : receiveAs cls b s = .ok x) : x.2.accepted = true := by
  rcases receiveAs_cases cls b s with ⟨hheld, -⟩ | ⟨-, -, e⟩ | ⟨-, -, -, e⟩ | ⟨-, -, -, -, e⟩ | ⟨-, -, -, -, e⟩ |
    ⟨-, -, -, -, e⟩
  · cases hheld.symm.trans hready
  all_goals cases hx.symm.trans e; rfl

/-- With no frame held POLL takes its byte, keeps the invariant and holds no frame (R94, R170). -/
theorem exec_poll_takes (b : Byte) {s : State} (h : s.Inv) (hready : s.block.msgReady = false) :
    ∃ t r o, exec (.poll b) s = .next t ∧ t.resp = .poll r o ∧ r.accepted = true ∧ t.Inv ∧
      t.block.msgReady = false := by
  obtain ⟨x, hx⟩ := receiveAs_ok (classify b) b s.block
  obtain ⟨y, hy, hidle, -⟩ := parseWith_total decodeFrame (receive_keeps_inv b s.block x h hx)
  have hpoll : blockOp Config.isc (.poll b) s.snapData s.block = .ok (y.1, .poll x.2 y.2) :=
    pollOp_of_receive_parseFrame hx hy
  exact ⟨_, x.2, y.2, exec_of_blockOp hpoll, rfl, receiveAs_accepts hready hx, blockOp_keeps_inv rfl h hpoll, hidle⟩

/-- With no frame held a SEND completes, keeps the invariant and holds no frame (R94). -/
theorem execAll_send_total (bs : List Byte) {s : State} (h : s.Inv) (hready : s.block.msgReady = false) :
    ∃ t, execAll (send bs) s = .next t ∧ t.Inv ∧ t.block.msgReady = false := by
  induction bs generalizing s with
  | nil => exact ⟨s, rfl, h, hready⟩
  | cons b bs ih =>
    obtain ⟨t, -, -, ht, -, -, hinv, hidle⟩ := exec_poll_takes b h hready
    obtain ⟨u, hu, hu'⟩ := ih hinv hidle
    exact ⟨u, (execAll_cons ht).trans hu, hu'⟩

/-- Settles O53: no POLL before it leaves a frame held, so the next one takes its byte. -/
theorem sendNeverHolds : Obligations.SendNeverHolds := by
  intro s h hready pre b
  obtain ⟨t, ht, hinv, hidle⟩ := execAll_send_total pre h hready
  obtain ⟨u, r, o, hu, hresp, haccepted, -, hdone⟩ := exec_poll_takes b hinv hidle
  exact ⟨t, u, r, o, ht, hu, hresp, haccepted, hdone⟩

/-! ### A frame received byte by byte -/

/-- The cells below the one just written read as before. -/
theorem map_read_write {m : Memory} {a k : Nat} (h : k ≤ a) (v : Byte) :
    (List.range k).map (m.write a v).read = (List.range k).map m.read :=
  List.map_congr_left fun j hj => read_write_other m a j v (by have := List.mem_range.mp hj; omega)

/-- A byte written after the cells `0..k-1` is read after them. -/
theorem map_read_write_succ {m : Memory} (hm : m.wf = true) (k : Nat) (v : Byte) :
    (List.range (k + 1)).map (m.write k v).read = (List.range k).map m.read ++ [v] := by
  rw [List.range_succ, List.map_append, map_read_write (Nat.le_refl k), List.map_singleton, read_write_same m hm]

/-- The block `t` is `s` while the receiver has stored the bytes `bs` of a frame (R132). -/
structure Received (s : Block n) (bs : List Byte) (t : Block n) : Prop where
  rest : t = { s with fb := t.fb, rxLen := t.rxLen, rxState := .receiving }
  len : t.rxLen.toNat = bs.length
  stored : (List.range bs.length).map t.fb.read = bs
  canonical : t.fb.wf = true

theorem Received.rxState {s t : Block n} {bs : List Byte} (h : Received s bs t) : t.rxState = .receiving := by
  rw [h.rest]

theorem Received.msgReady {s t : Block n} {bs : List Byte} (h : Received s bs t) : t.msgReady = s.msgReady := by
  rw [h.rest]

/-- The first ordinary byte starts a frame (R131). -/
theorem receive_first {b : Byte} {s : Block n} (hb : classify b = .ord) (hidle : s.rxState = .idle)
    (hlen : s.rxLen = 0) (hready : s.msgReady = false) (hfb : s.fb.wf = true) :
    ∃ t, receive b s = .ok (t, RxOut.taken) ∧ Received s [b] t := by
  refine ⟨{ s with fb := s.fb.write 0 b, rxLen := 1, rxState := .receiving }, ?_, rfl, rfl,
    map_read_write_succ hfb 0 b, write_keeps_wf _ hfb 0 (by decide) b⟩
  simpa [receive, hb, hidle, hlen, hready] using receiveAs_cases .ord b s

/-- A further ordinary byte is stored after those received (R132). -/
theorem Received.append {b : Byte} {s t : Block n} {bs : List Byte} (h : Received s bs t) (hb : classify b = .ord)
    (hlen : bs.length ≤ 30) (hready : s.msgReady = false) :
    ∃ u, receive b t = .ok (u, RxOut.taken) ∧ Received s (bs ++ [b]) u := by
  have hstate := h.rxState
  have hready' := h.msgReady.trans hready
  obtain ⟨hrest, hcount, hstored, hfb⟩ := h
  have hle : t.rxLen.toNat ≤ 30 := hcount ▸ hlen
  refine ⟨{ t with fb := t.fb.write t.rxLen.toNat b, rxLen := t.rxLen + 1 }, ?_, ?_, ?_, ?_, ?_⟩
  · simpa [receive, hb, hstate, hready', hle, Nat.not_lt.mpr hle] using receiveAs_cases .ord b t
  · rw [hrest]
  · rw [List.length_append, List.length_singleton]
    bv_omega
  · rw [List.length_append, List.length_singleton, hcount, map_read_write_succ hfb, hstored]
  · exact write_keeps_wf _ hfb _ (show _ < 32 by omega) b

/-- The terminator completes the frame of the bytes received (R133). -/
theorem Received.complete {s t : Block n} {bs : List Byte} (h : Received s bs t) (hord : ∀ b ∈ bs, classify b = .ord)
    (hlen : bs.length ≤ 30) (hready : s.msgReady = false) :
    ∃ u, receive Ascii.semi t = .ok (u, RxOut.framed) ∧
      u = { s with fb := u.fb, msgReady := true, rxLen := 0, rxState := .idle } ∧ HeldFrame u (bs ++ [Ascii.semi]) := by
  have hstate := h.rxState
  have hready' := h.msgReady.trans hready
  obtain ⟨hrest, hcount, hstored, hfb⟩ := h
  have hclass : classify Ascii.semi = .term := rfl
  refine ⟨{ t with
    fb := (t.fb.write bs.length Ascii.semi).write (bs.length + 1) Ascii.nul
    msgReady := true, rxLen := 0, rxState := .idle }, ?_, ?_, bs.length, by omega, ?_, ?_, fun j hj hsemi => ?_⟩
  · simpa [receive, hclass, hstate, hready', hcount, hlen, Nat.not_lt.mpr hlen] using receiveAs_cases .term Ascii.semi t
  · rw [hrest]
  · rw [map_read_write (Nat.le_refl _), map_read_write_succ hfb, hstored]
  · exact (read_write_other _ _ _ _ (by omega)).trans (read_write_same _ hfb _ _)
  · have hread : t.fb.read j = Ascii.semi := by
      rw [← hsemi]
      exact ((read_write_other _ _ _ _ (by omega)).trans (read_write_other _ _ _ _ (by omega))).symm
    have hmem : t.fb.read j ∈ bs := hstored ▸ List.mem_map_of_mem (List.mem_range.mpr hj)
    exact absurd (hord _ hmem) (by rw [hread]; decide)

/-- POLL of a byte that completes no frame is the receiver alone (R167, R170). -/
theorem pollOp_of_not_ready {b : Byte} {s : Block p.nCh} {x : Block p.nCh × RxOut} (hx : receive b s = .ok x)
    (hready : x.1.msgReady = false) : pollOp p b s = .ok (x.1, .poll x.2 (ParseOut.bare .none)) :=
  pollOp_of_receive_parseFrame hx (parseWith_idle p decodeFrame x.1 hready)

/-- Ordinary bytes sent by POLL are stored as a frame, one after another (R94, R132, R170). -/
theorem execAll_send_received {s0 : Block Config.isc.nCh} (hready : s0.msgReady = false) {pre bs : List Byte}
    {s : State} (h : Received s0 pre s.block) (hord : ∀ b ∈ bs, classify b = .ord)
    (hlen : pre.length + bs.length ≤ 31) :
    ∃ t, execAll (send bs) s = .next t ∧ Received s0 (pre ++ bs) t.block := by
  induction bs generalizing pre s with
  | nil => exact ⟨s, rfl, by rwa [List.append_nil]⟩
  | cons b bs ih =>
    obtain ⟨hb, hbs⟩ := List.forall_mem_cons.mp hord
    rw [List.length_cons] at hlen
    obtain ⟨u, hu, hrec⟩ := h.append hb (by omega) hready
    have hpoll := pollOp_of_not_ready (p := Config.isc) hu (hrec.msgReady.trans hready)
    obtain ⟨t, ht, hfinal⟩ := ih (s := { s with block := u, resp := .poll RxOut.taken (ParseOut.bare .none) }) hrec hbs
      (by rw [List.length_append, List.length_singleton]; omega)
    exact ⟨t, (execAll_cons (exec_of_blockOp (i := .poll b) hpoll)).trans ht, by simpa using hfinal⟩

/-- From `Idle` with nothing held, ordinary bytes sent by POLL are stored as a frame (R94, R131, R132). -/
theorem execAll_send_frame {b : Byte} {bs : List Byte} {s : State} (h : s.Inv) (hidle : s.block.rxState = .idle)
    (hready : s.block.msgReady = false) (hord : ∀ x ∈ b :: bs, classify x = .ord) (hlen : bs.length ≤ 30) :
    ∃ t, execAll (send (b :: bs)) s = .next t ∧ Received s.block (b :: bs) t.block := by
  obtain ⟨hb, hbs⟩ := List.forall_mem_cons.mp hord
  obtain ⟨u, hu, hrec⟩ := receive_first hb hidle (h.idleEmpty hidle) hready h.fbWf
  have hpoll := pollOp_of_not_ready (p := Config.isc) hu (hrec.msgReady.trans hready)
  obtain ⟨t, ht, hfinal⟩ := execAll_send_received (bs := bs) hready
    (s := { s with block := u, resp := .poll RxOut.taken (ParseOut.bare .none) }) hrec hbs
    (by rw [List.length_singleton]; omega)
  exact ⟨t, (execAll_cons (exec_of_blockOp (i := .poll b) hpoll)).trans ht, hfinal⟩

/-! ### Decimal text -/

theorem digit_toNat (n : Nat) : (BitVec.ofNat 8 (0x30 + n % 10)).toNat = 0x30 + n % 10 := by
  simp
  omega

/-- What the digits of a number put before others are: a digit string of its value, no longer than it must be (R94). -/
theorem decimalAux_spec (fuel m : Nat) (acc : List Byte) (h : m < fuel) :
    ∃ ds, decimalAux fuel m acc = ds ++ acc ∧ IsDigits ds ∧ decval ds = m ∧
      ∀ k, 0 < k → m < 10 ^ k → ds.length ≤ k := by
  induction fuel generalizing m acc with
  | zero => omega
  | succ fuel ih =>
    have hdigit := digit_toNat m
    rw [decimalAux]
    generalize BitVec.ofNat 8 (0x30 + m % 10) = d at hdigit ⊢
    have hrange : 0x30 ≤ d.toNat ∧ d.toNat ≤ 0x39 := by omega
    split_ifs with hm
    · have hval : decval [d] = m := by rw [← List.nil_append [d], decval_append, show decval [] = 0 from rfl]; omega
      exact ⟨[d], rfl, ⟨by simp, by simpa using hrange⟩, hval, fun _ hk _ => hk⟩
    · obtain ⟨ds, hds, ⟨-, hall⟩, hval, hbound⟩ := ih (m / 10) (d :: acc) (by omega)
      refine ⟨ds ++ [d], by simpa using hds, ⟨by simp, List.forall_mem_append.mpr ⟨hall, by simpa using hrange⟩⟩,
        by rw [decval_append]; omega, fun k hk hlt => ?_⟩
      rw [List.length_append, List.length_singleton]
      obtain _ | _ | k := k
      · omega
      · omega
      · have := hbound (k + 1) (by omega) (by rw [Nat.pow_succ] at hlt; omega)
        omega

/-- A number in decimal is a digit string of its value (R72, R94). -/
theorem decimalNat_isDigits (m : Nat) : IsDigits (decimalNat m) ∧ digitSum (decimalNat m) = m := by
  obtain ⟨ds, hds, hdigits, hval, -⟩ := decimalAux_spec (m + 1) m [] (by omega)
  rw [decimalNat, hds, List.append_nil, ← decimalValueIsDigitSum]
  exact ⟨hdigits, hval⟩

theorem length_decimalNat_le {m k : Nat} (hk : 0 < k) (h : m < 10 ^ k) : (decimalNat m).length ≤ k := by
  obtain ⟨ds, hds, -, -, hbound⟩ := decimalAux_spec (m + 1) m [] (by omega)
  rw [decimalNat, hds, List.append_nil]
  exact hbound k hk h

/-- An integer in decimal is an `INT` of its value (R72, R94). -/
theorem decimal_isInt (v : Int) : IsInt (decimal v) v := by
  obtain ⟨hdigits, hval⟩ := decimalNat_isDigits v.natAbs
  unfold decimal
  split_ifs with hv
  · have h := IsInt.minus _ hdigits
    rwa [hval, show -(v.natAbs : Int) = v by omega] at h
  · have h := IsInt.plain _ hdigits
    rwa [hval, show (v.natAbs : Int) = v by omega] at h

theorem length_decimal_le {v : Int} {k : Nat} (hk : 0 < k) (h : v.natAbs < 10 ^ k) : (decimal v).length ≤ k + 1 := by
  have := length_decimalNat_le hk h
  unfold decimal
  split_ifs <;> simp <;> omega

/-- The bytes of an `INT` are ordinary (R71, R72). -/
theorem IsInt.ordinary {s : List Byte} {v : Int} (h : IsInt s v) : ∀ b ∈ s, classify b = .ord := by
  intro b hb
  rcases h.bytes b hb with rfl | ⟨hlo, hhi⟩
  · rfl
  · have hrow : ∀ b : Byte, 0x30 ≤ b.toNat → b.toNat ≤ 0x39 → classify b = .ord := by decide
    exact hrow b hlo hhi

/-! ### A message as text -/

/-- The body of a message's frame (R94). -/
def messageBody (ch v : Int) : List Byte := decimal ch ++ Ascii.colon :: decimal v

theorem messageText_eq (k : Kind) (ch v : Int) :
    messageText k ch v = Kind.letter k :: messageBody ch v ++ [Ascii.semi] := by
  simp [messageText, messageBody]

/-- The frame of a message decodes to that message (R161, R162). -/
theorem decodeFrame_messageText (k : Kind) (ch v : Int) : decodeFrame (messageText k ch v) = .ok k ch v := by
  have hkind : kindOf (Kind.letter k) = some k := by cases k <;> rfl
  have hbody : decodeBody (messageBody ch v) = some (ch, v) :=
    (bodyGrammarDecided _ ch v).mpr ⟨_, _, rfl, decimal_isInt ch, decimal_isInt v⟩
  simp [messageText_eq, decodeFrame, decodeAs, hkind, hbody]

/-- Every byte of a message's frame before the terminator is ordinary (R71). -/
theorem message_ordinary (k : Kind) (ch v : Int) : ∀ b ∈ Kind.letter k :: messageBody ch v, classify b = .ord := by
  intro b hb
  rcases List.mem_cons.mp hb with rfl | hb
  · cases k <;> rfl
  rcases List.mem_append.mp hb with hb | hb
  · exact (decimal_isInt ch).ordinary b hb
  rcases List.mem_cons.mp hb with rfl | hb
  · rfl
  · exact (decimal_isInt v).ordinary b hb

/-- The frame of an 8-bit channel and a 16-bit value fits the buffer (R73, R94). -/
theorem length_messageBody_le (idx : BitVec 8) (imm : BitVec 16) :
    (messageBody idx.toNat imm.toInt).length ≤ 29 := by
  have hch := length_decimal_le (v := idx.toNat) (k := 3) (by omega) (by omega)
  have hv := length_decimal_le (v := imm.toInt) (k := 5) (by omega) (by have := imm.isLt; rw [BitVec.toInt]; omega)
  simp [messageBody]
  omega

/-- A differ update neither reads nor writes the frame buffer (R101). -/
theorem differUpdate_with_fb (k : Kind) (i : Fin n) (u : BitVec k.width) (s : Block n) (m : Memory) :
    differUpdate k i u { s with fb := m } =
      ({ (differUpdate k i u s).1 with fb := m }, (differUpdate k i u s).2) := by
  have hchan : Block.chan { s with fb := m } k i = s.chan k i := sameTable_of_banks (s := s) rfl rfl k i
  unfold differUpdate
  rw [hchan]
  dsimp only
  split
  · cases k <;> rfl
  · rfl

/-- Applying a message neither reads nor writes the frame buffer (R165, R166). -/
theorem applyMsg_with_fb (k : Kind) (ch v : Int) (s : Block p.nCh) (m : Memory) :
    applyMsg p k ch v { s with fb := m } = ({ (applyMsg p k ch v s).1 with fb := m }, (applyMsg p k ch v s).2) := by
  by_cases h : 0 ≤ ch ∧ ch < (p.nCh : Int)
  · simp only [applyMsg_inside p k ch v _ h, differUpdate_with_fb]
  · simp only [applyMsg_outside p k ch v _ (show ch < 0 ∨ _ by omega)]
    rfl

/-- A terminator sent by POLL after the rest of a message's frame applies the message (R133, R166, R170). -/
theorem Received.poll_applies {k : Kind} {ch v : Int} {s t : Block p.nCh}
    (h : Received s (Kind.letter k :: messageBody ch v) t) (hlen : (messageBody ch v).length ≤ 29)
    (hidle : s.rxState = .idle) (hempty : s.rxLen = 0) (hready : s.msgReady = false) :
    ∃ m, pollOp p Ascii.semi t =
      .ok ({ (applyMsg p k ch v s).1 with fb := m }, .poll RxOut.framed (applyMsg p k ch v s).2) := by
  obtain ⟨u, hu, hrest, hheld⟩ := h.complete (message_ordinary k ch v) (by rw [List.length_cons]; omega) hready
  have hflag : u.msgReady = true := by rw [hrest]
  have hback : { u with msgReady := false } = { s with fb := u.fb } := by
    rw [hrest, ← hidle, ← hempty, ← hready]
  have hparse : parseFrame p u = .ok (applyMsg p k ch v { s with fb := u.fb }) := by
    rw [← messageText_eq] at hheld
    rw [parseFrame, parseWith_held p decodeFrame u _ hflag hheld, decodeFrame_messageText, hback]
  rw [applyMsg_with_fb] at hparse
  exact ⟨u.fb, pollOp_of_receive_parseFrame hu hparse⟩

/-- Settles O57: the bytes before the terminator are stored one by one, and the terminator applies the message to the
block as it was but for the frame buffer, which APPLY neither reads nor writes. -/
theorem sendMsgEqualsApply : Obligations.SendMsgEqualsApply := by
  intro k idx imm s h hidle hready
  have hlen := length_messageBody_le idx imm
  obtain ⟨t, ht, hrec⟩ := execAll_send_frame h hidle hready (message_ordinary k idx.toNat imm.toInt) (by omega)
  obtain ⟨m, hm⟩ := hrec.poll_applies hlen hidle (h.idleEmpty hidle) hready
  have hlast := exec_of_blockOp (i := .poll Ascii.semi) (s := t) hm
  have hall := (execAll_append (js := send [Ascii.semi]) ht).trans (execAll_cons hlast)
  rw [send, send, ← List.map_append, ← messageText_eq] at hall
  obtain ⟨hstate, hcount, hflag, -⟩ := applyMsg_keeps Config.isc k idx.toNat imm.toInt s.block
  exact ⟨_, _, _, hall, exec_of_blockOp (i := .apply k idx imm) rfl, sameTable_of_banks rfl rfl,
    ⟨rfl, rfl, rfl, rfl, rfl, rfl⟩, ⟨hstate, hcount, hflag⟩, execAll_keeps_ports hall, rfl, rfl⟩

end Sys2Proof.Machine
end

section
/-! PROOFS of the family 40_bus_differ. The stored form of a value (R100), the differ seen from the operations of this
hardware (R105, R166), and several differ updates: of different channels (R104) and of one channel (R106). -/

namespace Sys2Proof.Machine

variable {n : Nat}

/-! ### The stored form of a value -/

/-- A clamped value lies between the bounds (R9). -/
theorem clamp_mem {lo hi : Int} (h : lo ≤ hi) (v : Int) : lo ≤ clamp v lo hi ∧ clamp v lo hi ≤ hi := by
  unfold clamp
  split
  · exact ⟨Int.le_refl lo, h⟩
  · split <;> omega

/-- An encoder value is stored as its clamped value, which fits 7 bits (R30, R100). -/
theorem toNat_norm_encoder (v : Int) : ((norm .encoder v).toNat : Int) = clamp v 0 127 := by
  obtain ⟨hlo, hhi⟩ := clamp_mem (show (0 : Int) ≤ 127 by decide) v
  show ((BitVec.ofInt 7 (clamp v 0 127)).toNat : Int) = clamp v 0 127
  rw [BitVec.toNat_ofInt]
  omega

/-- Settles O19: the clauses are the branches of the clamp and of the button's test. -/
theorem normalisedValues : Obligations.NormalisedValues := by
  intro v
  have henc := toNat_norm_encoder v
  unfold clamp at henc
  refine ⟨fun h => ?_, fun h => ?_, fun h0 h127 => ?_, fun h => ?_, fun h => ?_⟩
  · rw [if_pos h] at henc
    omega
  · rw [if_neg (by omega), if_pos h] at henc
    omega
  · rwa [if_neg (by omega), if_neg (by omega)] at henc
  · rw [norm, if_pos h]; rfl
  · rw [norm, if_neg h]; rfl

/-! ### The differ on this hardware -/

/-- What an instruction leaves on the machine with this hardware's parameters, it leaves on this hardware (R5). -/
theorem exec_of_execFor_next {i : Instr} {s : State} {t : StateOf Config.isc}
    (h : execFor Config.isc i s.toStateOf = .next t) :
    exec i s = .next { s with block := t.block, resp := t.resp } := by
  obtain ⟨y, hy, rfl⟩ := execFor_next h
  exact exec_of_blockOp hy

/-- What faults on the machine with this hardware's parameters faults on this hardware (R5). -/
theorem exec_of_execFor_fault {i : Instr} {s : State} {f : Fault} (h : execFor Config.isc i s.toStateOf = .fault f) :
    exec i s = .fault f := by
  rw [execFor_toStateOf] at h
  cases hi : exec i s with
  | fault e => rw [hi] at h; cases h; rfl
  | next t => rw [hi] at h; cases h
  | refused q => rw [hi] at h; cases h

/-- Settles O22: in range DIFF is one differ update with its record, out of range it is the host fault. -/
theorem diffStoresOrFaults : Obligations.DiffStoresOrFaults := by
  refine fun k idx imm s => ⟨fun h => ?_, fun h => exec_of_execFor_fault (execFor_diff_outside k idx imm _ h)⟩
  obtain ⟨hfb, hrx⟩ := differUpdate_sameFb_sameReceiver s.block k ⟨idx.toNat, h⟩ (norm k imm.toInt)
  exact ⟨_, exec_of_execFor_next (execFor_diff_inside k idx imm s.toStateOf h), differUpdate_chan_same ..,
    differUpdate_other s.block k _ _, differUpdate_errors .., hfb, hrx, ⟨rfl, rfl⟩,
    congrArg (Resp.diff _) (differUpdate_changed s.block k _ _)⟩

/-! ### Updates of different channels -/

/-- A differ update writes the banks only (R101). -/
theorem differUpdate_frame (k : Kind) (i : Fin n) (u : BitVec k.width) (s : Block n) :
    (differUpdate k i u s).1 = { s with enc := (differUpdate k i u s).1.enc, btn := (differUpdate k i u s).1.btn } := by
  unfold differUpdate
  dsimp only
  split
  · cases k <;> rfl
  · rfl

section TwoChannels

variable {k k' : Kind} {i j : Fin n} (u : BitVec k.width) (u' : BitVec k'.width) (s : Block n)

/-- After an update of one channel and then of another, the first holds what its own update left (R104). -/
theorem differUpdate_differUpdate_chan_first (h : ¬(k' = k ∧ j = i)) :
    (differUpdate k' j u' (differUpdate k i u s).1).1.chan k i = (s.chan k i).updated u := by
  rw [differUpdate_other _ _ _ _ _ _ fun e => h ⟨e.1.symm, e.2.symm⟩, differUpdate_chan_same]

/-- After an update of one channel and then of another, the second holds what its own update leaves (R104). -/
theorem differUpdate_differUpdate_chan_second (h : ¬(k' = k ∧ j = i)) :
    (differUpdate k' j u' (differUpdate k i u s).1).1.chan k' j = (s.chan k' j).updated u' := by
  rw [differUpdate_chan_same, differUpdate_other _ _ _ _ _ _ h]

/-- Updates of two different channels leave the same table in either order (R104). -/
theorem differUpdate_comm_sameTable (h : ¬(k' = k ∧ j = i)) :
    SameTable (differUpdate k i u (differUpdate k' j u' s).1).1 (differUpdate k' j u' (differUpdate k i u s).1).1 := by
  have h' : ¬(k = k' ∧ i = j) := fun e => h ⟨e.1.symm, e.2.symm⟩
  intro l m
  by_cases hi : l = k ∧ m = i
  · obtain ⟨rfl, rfl⟩ := hi
    rw [differUpdate_differUpdate_chan_first u u' s h, differUpdate_differUpdate_chan_second u' u s h']
  by_cases hj : l = k' ∧ m = j
  · obtain ⟨rfl, rfl⟩ := hj
    rw [differUpdate_differUpdate_chan_second u u' s h, differUpdate_differUpdate_chan_first u' u s h']
  · calc (differUpdate k' j u' (differUpdate k i u s).1).1.chan l m
      _ = s.chan l m := (differUpdate_other _ _ _ _ l m hj).trans (differUpdate_other _ _ _ _ l m hi)
      _ = _ := ((differUpdate_other _ _ _ _ l m hi).trans (differUpdate_other _ _ _ _ l m hj)).symm

end TwoChannels

/-- Settles O23: either order leaves the same table and writes nothing else, and the second update compares with a
channel that the first left alone. -/
theorem differUpdatesCommute : Obligations.DifferUpdatesCommute := by
  intro n s k k' i j u u' h
  constructor
  · obtain ⟨henc, hbtn⟩ := bank_ext (differUpdate_comm_sameTable u u' s h)
    rw [differUpdate_frame k', differUpdate_frame k i u (differUpdate k' j u' s).1, henc, hbtn,
      differUpdate_frame k i u s, differUpdate_frame k' j u' s]
  · rw [differUpdate_changed, differUpdate_changed, differUpdate_other s k i u k' j h]

/-! ### Updates of one channel -/

section OneChannel

variable {w : Nat} {vs : List (BitVec w)} {c : Chan w}

/-- Updates of a channel leave the last value given (R106). -/
theorem foldl_updated_cur (c : Chan w) (vs : List (BitVec w)) : (vs.foldl Chan.updated c).cur = curAfter c.cur vs := by
  induction vs generalizing c with
  | nil => rfl
  | cons v vs ih => rw [List.foldl_cons, ih, updated_cur, curAfter, curAfter, List.getLastD_cons]

/-- Updates with the current value leave the channel as it was (R101, R106). -/
theorem foldl_updated_self (h : ∀ v ∈ vs, v = c.cur) : vs.foldl Chan.updated c = c := by
  induction vs with
  | nil => rfl
  | cons v vs ih =>
    obtain ⟨rfl, hvs⟩ := List.forall_mem_cons.mp h
    rw [List.foldl_cons, updated_self, ih hvs]

/-- The flag after updates is set if it was set or some value differs from the one at the start (R33, R106). The first
such value is the update that changes `cur`. -/
theorem foldl_updated_chg (c : Chan w) (vs : List (BitVec w)) :
    (vs.foldl Chan.updated c).chg = true ↔ c.chg = true ∨ ∃ v ∈ vs, v ≠ c.cur := by
  induction vs generalizing c with
  | nil => simp
  | cons v vs ih =>
    rw [List.foldl_cons, ih]
    by_cases hv : v = c.cur
    · subst hv
      simp [updated_self]
    · simp [updated_of_ne hv, hv]

/-- `prev` after updates is the value just before the last one that changed `cur` (R32, R106). -/
theorem foldl_updated_prev {v : BitVec w} {pre post : List (BitVec w)} (hv : v ≠ curAfter c.cur pre)
    (hpost : ∀ x ∈ post, x = v) : ((pre ++ v :: post).foldl Chan.updated c).prev = curAfter c.cur pre := by
  rw [← foldl_updated_cur] at hv ⊢
  rw [List.foldl_append, List.foldl_cons, foldl_updated_self (by rwa [updated_cur]), updated_of_ne hv]

end OneChannel

/-- DIFF and APPLY of one channel in range, in any mixture, complete and are differ updates of it one after another
(R105, R166). -/
theorem execAll_differ_inside (k : Kind) (idx : BitVec 8) (h : idx.toNat < Config.isc.nCh)
    (us : List (Bool × BitVec 16)) (s : State) :
    ∃ t, execAll (us.map (fun x => if x.1 then Instr.diff k idx x.2 else Instr.apply k idx x.2)) s = .next t ∧
      t.block.chan k ⟨idx.toNat, h⟩ =
        (us.map (fun x => norm k x.2.toInt)).foldl Chan.updated (s.block.chan k ⟨idx.toNat, h⟩) := by
  induction us generalizing s with
  | nil => exact ⟨s, rfl, rfl⟩
  | cons x us ih =>
    obtain ⟨o, ho⟩ := execFor_differ_inside k idx x.2 s.toStateOf h
      (i := if x.1 then Instr.diff k idx x.2 else Instr.apply k idx x.2) (by split <;> simp)
    obtain ⟨t, ht, hchan⟩ := ih _
    refine ⟨t, (execAll_cons (exec_of_execFor_next ho)).trans ht, hchan.trans ?_⟩
    exact congrArg (List.foldl _ · _) (differUpdate_chan_same ..)

/-- Settles O24: the channel is what the updates leave of it one after another. -/
theorem updatesCoalesce : Obligations.UpdatesCoalesce := by
  intro k idx h us s
  obtain ⟨t, ht, hchan⟩ := execAll_differ_inside k idx h us s
  refine ⟨t, ht, ?_⟩
  dsimp only
  rw [hchan]
  refine ⟨foldl_updated_cur _ _, foldl_updated_chg _ _, foldl_updated_self, fun pre v post hvs hv hpost => ?_⟩
  rw [hvs]
  exact foldl_updated_prev hv hpost

end Sys2Proof.Machine
end

section
/-! PROOFS of the family 41_frame_receiver. The receiver's rows as equations (R128 to R135), the operations that present
no byte (R125), and streams of bytes fed by RXB (R129, R137). -/

namespace Sys2Proof.Machine

variable {p : Params} {n : Nat}

/-! ### The receiver's rows -/

section Rows

variable {cls : ByteClass} {b : Byte} {s : Block n}

/-- The hold (R128). -/
theorem receiveAs_held (hready : s.msgReady = true) : receiveAs cls b s = .ok (s, RxOut.held) := by
  simp [receiveAs, hready]

/-- The overflow row goes before the rows of the state and the class (R129). -/
theorem receiveAs_full (hready : s.msgReady = false) (hlen : 30 < s.rxLen.toNat) :
    receiveAs cls b s = .ok (raise .transportOverflow { s with rxLen := 0, rxState := .idle }, RxOut.overflowed) := by
  simp [receiveAs, hready, hlen]

/-- Noise in any state and the terminator in `Idle` are taken and ignored (R130, R135). -/
theorem receiveAs_ignored (hready : s.msgReady = false) (hlen : s.rxLen.toNat ≤ 30)
    (hcls : cls = .noise ∨ (s.rxState = .idle ∧ cls = .term)) : receiveAs cls b s = .ok (s, RxOut.taken) := by
  rcases hcls with rfl | ⟨hidle, rfl⟩
  · cases hstate : s.rxState <;> simp [receiveAs, hready, hlen, hstate]
  · simp [receiveAs, hready, hlen, hidle]

/-- An ordinary byte in `Idle` is stored at index 0 (R131). -/
theorem receiveAs_idle_ord (hready : s.msgReady = false) (hlen : s.rxLen.toNat ≤ 30) (hidle : s.rxState = .idle) :
    receiveAs .ord b s = .ok ({ s with fb := s.fb.write 0 b, rxLen := 1, rxState := .receiving }, RxOut.taken) := by
  simp [receiveAs, hready, hlen, hidle]

/-- An ordinary byte in `Receiving` is stored at `RX.len` (R132). -/
theorem receiveAs_receiving_ord (hready : s.msgReady = false) (hlen : s.rxLen.toNat ≤ 30)
    (hstate : s.rxState = .receiving) :
    receiveAs .ord b s =
      .ok ({ s with fb := s.fb.write s.rxLen.toNat b, rxLen := s.rxLen + 1 }, RxOut.taken) := by
  have hinside : s.rxLen.toNat < 32 := by omega
  simp [receiveAs, hready, hlen, hstate, hinside]

/-- The terminator in `Receiving` completes the frame (R133). -/
theorem receiveAs_receiving_term (hready : s.msgReady = false) (hlen : s.rxLen.toNat ≤ 30)
    (hstate : s.rxState = .receiving) :
    receiveAs .term b s =
      .ok ({ s with
        fb := (s.fb.write s.rxLen.toNat Ascii.semi).write (s.rxLen.toNat + 1) Ascii.nul
        msgReady := true, rxLen := 0, rxState := .idle }, RxOut.framed) := by
  have hinside : s.rxLen.toNat + 1 < 32 := by omega
  simp [receiveAs, hready, hlen, hstate, hinside, Nat.lt_of_succ_lt hinside]

end Rows

/-! ### Presenting one byte -/

/-- The ordinary bytes are those that no other row of R71 lists. -/
theorem classify_ord_iff (b : Byte) : classify b = .ord ↔ b ∉ [0x3B#8, 0x0A#8, 0x0D#8, 0x00#8] := by
  have hterm := classify_term b
  have hnoise := classify_noise b
  cases hcls : classify b <;> simp_all

/-- The noise bytes as R71 lists them. -/
theorem classify_noise_iff_mem (b : Byte) : classify b = .noise ↔ b ∈ [0x0A#8, 0x0D#8, 0x00#8] := by
  simp [classify_noise]

/-- The receiver goes by the class of the byte (R126). -/
theorem receive_of_class {cls : ByteClass} {b : Byte} (hb : classify b = cls) (s : Block n) :
    receive b s = receiveAs cls b s := hb ▸ rfl

/-- RXB of a byte and the serial row of that byte leave what the receiver leaves (R71, R136). -/
theorem exec_of_receive {b : Byte} {i : Instr} {s : State} {x : Block Config.isc.nCh × RxOut}
    (hi : i ∈ [Instr.rxb b, decodeSerial b]) (hx : receive b s.block = .ok x) :
    exec i s = .next { s with block := x.1, resp := .rxb x.2 } :=
  exec_of_blockOp (y := (x.1, .rxb x.2)) (by rw [blockOp_of_serial hi, hx, record_ok])

/-- Settles O1: the hold. -/
theorem byteHeldWhileFrameWaits : Obligations.ByteHeldWhileFrameWaits :=
  fun _ _ hready _ hi => exec_of_receive hi (receiveAs_held hready)

/-- Settles O2: the overflow row. -/
theorem byteOverflowsFullFrame : Obligations.ByteOverflowsFullFrame :=
  fun _ _ hready hlen _ hi => exec_of_receive hi (receiveAs_full hready hlen)

/-- Settles O3: in `Idle` the terminator and the noise bytes are ignored. -/
theorem idleIgnoresTerminatorAndNoise : Obligations.IdleIgnoresTerminatorAndNoise := by
  intro b s hidle hready hlen hb i hi
  refine exec_of_receive hi (receiveAs_ignored hready hlen ?_)
  rcases List.mem_cons.mp hb with rfl | hb
  · exact .inr ⟨hidle, rfl⟩
  · exact .inl ((classify_noise_iff_mem b).mpr hb)

/-- Settles O7: noise is ignored in `Receiving` as in `Idle`. -/
theorem receivingIgnoresNoise : Obligations.ReceivingIgnoresNoise :=
  fun b _ _ hready hlen hb _ hi =>
    exec_of_receive hi (receiveAs_ignored hready hlen (.inl ((classify_noise_iff_mem b).mpr hb)))

/-- Settles O4: the write is at index 0 and leaves every other cell. -/
theorem idleStoresFirstByte : Obligations.IdleStoresFirstByte := by
  intro b s hfb hidle hready hlen hb i hi
  have hx := (receive_of_class ((classify_ord_iff b).mpr hb) s.block).trans (receiveAs_idle_ord hready hlen hidle)
  exact ⟨_, exec_of_receive hi hx, read_write_same _ hfb 0 b, fun a ha => read_write_other _ 0 a b ha, rfl⟩

/-- Settles O5: the write is at the old `RX.len`, which does not wrap. -/
theorem receivingAppendsByte : Obligations.ReceivingAppendsByte := by
  intro b s hfb hstate hready hlen hb i hi
  have hx := (receive_of_class ((classify_ord_iff b).mpr hb) s.block).trans
    (receiveAs_receiving_ord hready hlen hstate)
  have hcount : (s.block.rxLen + 1).toNat = s.block.rxLen.toNat + 1 := by bv_omega
  exact ⟨_, exec_of_receive hi hx, read_write_same _ hfb _ b, fun a ha => read_write_other _ _ a b ha, hcount, rfl⟩

/-- Settles O6: the terminator is written at the old `RX.len` and the NUL after it. -/
theorem terminatorCompletesFrame : Obligations.TerminatorCompletesFrame := by
  intro s hfb hstate hready hlen i hi
  have hx := (receive_of_class (b := Ascii.semi) rfl s.block).trans (receiveAs_receiving_term hready hlen hstate)
  have hfb' := write_keeps_wf _ hfb s.block.rxLen.toNat (show _ < 32 by omega) Ascii.semi
  refine ⟨_, exec_of_receive hi hx, ?_, read_write_same _ hfb' _ _, fun a hne hne' => ?_, rfl⟩
  · exact (read_write_other _ _ _ _ (by omega)).trans (read_write_same _ hfb _ _)
  · exact (read_write_other _ _ a _ hne').trans (read_write_other _ _ a _ hne)

/-! ### Operations that present no byte -/

/-- The receiver's state, its length and the frame buffer of `t` are those of `s`, and no frame becomes held. -/
structure KeepsReceiver (s t : Block n) : Prop where
  rxState : t.rxState = s.rxState
  rxLen : t.rxLen = s.rxLen
  fb : t.fb = s.fb
  msgReady : t.msgReady = true → s.msgReady = true

/-- A block left alone has its receiver left alone. -/
theorem keepsReceiver_of_eq {s t : Block n} (h : t = s) : KeepsReceiver s t := h ▸ ⟨rfl, rfl, rfl, id⟩

/-- The parser consumes the frame and writes errors or one channel (R167). -/
theorem parseWith_keepsReceiver {dec : List Byte → FrameDecode} {s : Block p.nCh} {x} (hx : parseWith p dec s = .ok x) :
    KeepsReceiver s x.1 := by
  rcases parseWith_cases p dec s x hx with ⟨-, rfl⟩ | ⟨-, e, o, rfl⟩ | ⟨-, k, i, u, o, rfl⟩
  · exact keepsReceiver_of_eq rfl
  · constructor <;> simp
  · constructor <;> simp

/-- `POLL -` is the parser alone (R170). -/
theorem pollBlock_none_keepsReceiver {s : Block p.nCh} {x} (hx : pollBlock p none s = .ok x) :
    KeepsReceiver s x.1 := by
  unfold pollBlock at hx
  dsimp only at hx
  split at hx <;> cases hx
  next hparse => exact parseWith_keepsReceiver hparse

/-- APPLY writes one channel or records an error (R166). -/
theorem applyMsg_keepsReceiver (k : Kind) (ch v : Int) (s : Block p.nCh) : KeepsReceiver s (applyMsg p k ch v s).1 := by
  obtain ⟨hstate, hlen, hready, hfb, -⟩ := applyMsg_keeps p k ch v s
  exact ⟨hstate, hlen, hfb, (hready ▸ ·)⟩

/-- DIFF writes one channel (R105). -/
theorem diffBlock_keepsReceiver {k : Kind} {idx : Nat} {v : Int} {s : Block p.nCh} {x}
    (hx : diffBlock p k idx v s = .ok x) : KeepsReceiver s x.1 := by
  unfold diffBlock at hx
  split at hx <;> cases hx
  constructor <;> simp

/-- SNAP records an error or writes channels (R190). -/
theorem snapBlock_keepsReceiver {len : Nat} {r : SnapData} {s : Block p.nCh} {x} (hx : snapBlock p len r s = .ok x) :
    KeepsReceiver s x.1 := by
  unfold snapBlock at hx
  split at hx
  · cases hx
  split at hx <;> cases hx
  · constructor <;> simp
  · constructor <;> simp [snapBank_keeps]

/-- Settles O47: every other operation is the parser, writes channels or errors, or writes nothing. -/
theorem onlyByteOperationsWriteReceiver : Obligations.OnlyByteOperationsWriteReceiver := by
  intro i s t ht hbyte hrow
  obtain ⟨y, hy, rfl⟩ := exec_next ht
  suffices h : KeepsReceiver s.block y.1 from ⟨h.rxState, h.rxLen, fun a => congrArg (·.read a) h.fb, h.msgReady⟩
  cases i with
  | rxb b => exact absurd rfl (hbyte b).1
  | poll b => exact absurd rfl (hbyte b).2.1
  | ord b => exact absurd rfl (hbyte b).2.2
  | term | noiseNul | noiseLf | noiseCr => simp at hrow
  | reservedAB | reservedCF => cases hy
  | nop | rdstat => cases hy; exact keepsReceiver_of_eq rfl
  | drain => cases hy; exact ⟨rfl, rfl, rfl, id⟩
  | apply => cases hy; exact applyMsg_keepsReceiver _ _ _ s.block
  | parse | encoderUpdate | buttonUpdate | unknownKind => exact record_block (fun _ => parseWith_keepsReceiver) hy
  | pollNb =>
    exact record_block (fun _ => pollBlock_none_keepsReceiver) (show pollNbOp Config.isc s.block = .ok y from hy)
  | diff k idx imm =>
    exact record_block (fun _ => diffBlock_keepsReceiver) (show diffOp Config.isc k idx imm s.block = .ok y from hy)
  | snap n =>
    exact record_block (fun _ => snapBlock_keepsReceiver)
      (show snapOp Config.isc n s.snapData s.block = .ok y from hy)
  | read k idx =>
    exact record_block (fun _ hx => keepsReceiver_of_eq (readBlock_block hx))
      (show readOp Config.isc k idx s.block = .ok y from hy)

/-! ### Streams of bytes -/

/-- One more byte of a stream is the receiver on what the stream left (R61, R136). -/
theorem execAll_feed_append {bs : List Byte} {b : Byte} {s t : State} {x : Block Config.isc.nCh × RxOut}
    (ht : execAll (feed bs) s = .next t) (hx : receive b t.block = .ok x) :
    execAll (feed (bs ++ [b])) s = .next { t with block := x.1, resp := .rxb x.2 } := by
  rw [feed, List.map_append, List.map_singleton]
  exact (execAll_append ht).trans (execAll_cons (exec_of_receive (by simp) hx))

/-- A stream fed byte by byte completes, and what the receiver keeps from each part of it to the next holds at its end
(R51, R61). -/
theorem execAll_feed_induction {P : List Byte → Block Config.isc.nCh → Prop} {bs : List Byte} {s : State}
    (start : P [] s.block)
    (next : ∀ pre b, pre ++ [b] <+: bs → ∀ t x, P pre t → receive b t = .ok x → P (pre ++ [b]) x.1) :
    ∃ t, execAll (feed bs) s = .next t ∧ P bs t.block := by
  induction bs using List.reverseRecOn with
  | nil => exact ⟨s, rfl, start⟩
  | append_singleton bs b ih =>
    obtain ⟨t, ht, hP⟩ := ih fun pre b' hpre => next pre b' (hpre.trans (List.prefix_append bs [b]))
    obtain ⟨x, hx⟩ := receiveAs_ok (classify b) b t.block
    exact ⟨_, execAll_feed_append ht hx, next bs b (List.prefix_refl _) t.block x hP hx⟩

/-- The block `t` is `s` but for what bytes that complete no frame may write: the buffer, the receiver's state and
length, and the record of an overflow (R128 to R132, R135). -/
def NoFrameSince (s t : Block n) : Prop :=
  t = { s with
    fb := t.fb, rxLen := t.rxLen, rxState := t.rxState, errLast := t.errLast, cntOvf := t.cntOvf }

/-- A byte other than the terminator completes no frame (R137). -/
theorem NoFrameSince.of_receive {b : Byte} {s t : Block n} {x : Block n × RxOut} (h : NoFrameSince s t)
    (hb : b ≠ Ascii.semi) (hx : receive b t = .ok x) : NoFrameSince s x.1 := by
  have hterm : classify b ≠ .term := fun e => hb ((classify_term b).mp e)
  unfold NoFrameSince at h
  rcases receiveAs_cases (classify b) b t with ⟨-, e⟩ | ⟨-, -, e⟩ | ⟨-, -, -, e⟩ | ⟨-, -, -, -, e⟩ |
    ⟨-, -, -, -, e⟩ | ⟨-, -, -, e, -⟩
  case inr.inr.inr.inr.inr => exact absurd e hterm
  all_goals cases hx.symm.trans e; rw [h]; rfl

/-- Settles O54: no byte of the stream completes a frame. -/
theorem noFrameWithoutTerminator : Obligations.NoFrameWithoutTerminator := by
  intro s bs hready hbs
  obtain ⟨t, ht, h⟩ := execAll_feed_induction (P := fun _ => NoFrameSince s.block) (bs := bs) (s := s) rfl
    fun pre b hpre t x hP => hP.of_receive (hbs b (hpre.subset (by simp)))
  unfold NoFrameSince at h
  refine ⟨t, ht, ?_⟩
  rw [h]
  exact ⟨hready, sameTable_of_banks rfl rfl, rfl, rfl, rfl, rfl⟩

/-- The block `t` is `s` after `k` ordinary bytes from `Idle`, whatever the buffer holds (R131, R132). -/
def Counted (s : Block n) (k : Nat) (t : Block n) : Prop :=
  t = { s with fb := t.fb, rxLen := BitVec.ofNat 5 k, rxState := if k = 0 then .idle else .receiving }

/-- `Idle` with no byte received is the start of the count (R131). -/
theorem counted_zero {s : Block n} (hidle : s.rxState = .idle) (hlen : s.rxLen = 0) : Counted s 0 s := by
  show s = { s with rxLen := 0, rxState := .idle }
  rw [← hidle, ← hlen]

/-- An ordinary byte that fits is counted (R131, R132). -/
theorem Counted.succ {b : Byte} {s t : Block n} {k : Nat} {x : Block n × RxOut} (h : Counted s k t)
    (hready : s.msgReady = false) (hk : k ≤ 30) (hb : classify b = .ord) (hx : receive b t = .ok x) :
    Counted s (k + 1) x.1 := by
  unfold Counted at h
  have hready' : t.msgReady = false := by rw [h]; exact hready
  have hcount : t.rxLen = BitVec.ofNat 5 k := by rw [h]
  have hlen : t.rxLen.toNat ≤ 30 := by rw [hcount, BitVec.toNat_ofNat]; omega
  rw [receive_of_class hb] at hx
  by_cases hzero : k = 0
  · subst hzero
    have hidle : t.rxState = .idle := by rw [h]; rfl
    cases hx.symm.trans (receiveAs_idle_ord hready' hlen hidle)
    rw [h]; rfl
  · have hstate : t.rxState = .receiving := by rw [h]; exact if_neg hzero
    cases hx.symm.trans (receiveAs_receiving_ord hready' hlen hstate)
    have hsucc : t.rxLen + 1 = BitVec.ofNat 5 (k + 1) := by rw [hcount, BitVec.ofNat_add]; rfl
    unfold Counted
    dsimp only
    rw [hsucc, hstate, if_neg (Nat.succ_ne_zero k)]
    rw [h]

/-- After 31 ordinary bytes the receiver is full, and the next byte of any class overflows (R129). -/
theorem Counted.overflow {s t : Block n} (h : Counted s 31 t) (hready : s.msgReady = false) (b : Byte) :
    t.rxState = .receiving ∧ t.rxLen.toNat = 31 ∧ SameErrors s t ∧
      ∃ u, receive b t = .ok (u, RxOut.overflowed) ∧
        u.rxState = .idle ∧ u.rxLen = 0 ∧ u.msgReady = false ∧ ErrorRecorded .transportOverflow s u := by
  unfold Counted at h
  have hready' : t.msgReady = false := by rw [h]; exact hready
  have hlen : t.rxLen.toNat = 31 := by rw [h]; rfl
  have herr : SameErrors s t := by rw [h]; exact ⟨rfl, rfl, rfl, rfl, rfl, rfl⟩
  refine ⟨by rw [h]; rfl, hlen, herr, _, receiveAs_full hready' (by omega), by simp, by simp, by simpa using hready',
    ?_⟩
  rw [h]
  exact raise_errorRecorded .transportOverflow { s with fb := t.fb, rxLen := 0, rxState := .idle }

/-- Settles O55: 31 ordinary bytes are counted, and the overflow row takes the next byte. -/
theorem thirtySecondByteOverflows : Obligations.ThirtySecondByteOverflows := by
  intro s bs b hidle hlen hready hcount hord
  have counts : ∀ pre b, pre ++ [b] <+: bs → ∀ t x, Counted s.block pre.length t → receive b t = .ok x →
      Counted s.block (pre ++ [b]).length x.1 := by
    intro pre b hpre t x hP hx
    have hfits := hpre.length_le
    rw [List.length_append, List.length_singleton] at hfits ⊢
    exact hP.succ hready (by omega) ((classify_ord_iff b).mpr (hord b (hpre.subset (by simp)))) hx
  obtain ⟨t, ht, h⟩ := execAll_feed_induction (counted_zero hidle hlen) counts
  rw [hcount] at h
  obtain ⟨hstate, hfull, herr, u, hu, hidle', hempty, hready', hrec⟩ := h.overflow hready b
  exact ⟨t, _, ht, hstate, hfull, herr, exec_of_receive (by simp) hu, rfl, hidle', hempty, hready', hrec⟩

/-! ### A frame with noise in it -/

/-- The bytes of a stream without terminators that the receiver stores (R71). -/
def withoutNoise (bs : List Byte) : List Byte := bs.filter (fun b => b ∉ [0x0A#8, 0x0D#8, 0x00#8])

theorem withoutNoise_append_noise {b : Byte} (hb : b ∈ [0x0A#8, 0x0D#8, 0x00#8]) (bs : List Byte) :
    withoutNoise (bs ++ [b]) = withoutNoise bs := by
  simpa [withoutNoise, or_iff_not_imp_left] using hb

theorem withoutNoise_append_stored {b : Byte} (hb : b ∉ [0x0A#8, 0x0D#8, 0x00#8]) (bs : List Byte) :
    withoutNoise (bs ++ [b]) = withoutNoise bs ++ [b] := by
  simpa [withoutNoise] using hb

/-- The receiver has stored the bytes `bs` of a frame, from `s` in `Idle`; with none it is still `s` (R131, R132). -/
def Assembled (s : Block n) (bs : List Byte) (t : Block n) : Prop := (bs = [] ∧ t = s) ∨ Received s bs t

section Assembly

variable {s t : Block n} {b : Byte} {bs : List Byte} {x : Block n × RxOut}

/-- Noise leaves what is stored, as long as the buffer is not full (R130, R135). -/
theorem Assembled.noise (h : Assembled s bs t) (hinv : s.Inv) (hidle : s.rxState = .idle) (hready : s.msgReady = false)
    (hlen : bs.length ≤ 30) (hb : classify b = .noise) (hx : receive b t = .ok x) : Assembled s bs x.1 := by
  have room : t.msgReady = false ∧ t.rxLen.toNat ≤ 30 := by
    rcases h with ⟨-, rfl⟩ | hrec
    · exact ⟨hready, by simp [hinv.idleEmpty hidle]⟩
    · exact ⟨hrec.msgReady.trans hready, hrec.len ▸ hlen⟩
  cases hx.symm.trans (receiveAs_ignored room.1 room.2 (.inl hb))
  exact h

/-- An ordinary byte is stored after the others (R131, R132). -/
theorem Assembled.append (h : Assembled s bs t) (hinv : s.Inv) (hidle : s.rxState = .idle) (hready : s.msgReady = false)
    (hlen : bs.length ≤ 30) (hb : classify b = .ord) (hx : receive b t = .ok x) : Assembled s (bs ++ [b]) x.1 := by
  rcases h with ⟨rfl, rfl⟩ | hrec
  · obtain ⟨u, hu, hrec⟩ := receive_first hb hidle (hinv.idleEmpty hidle) hready hinv.fbWf
    cases hx.symm.trans hu
    exact .inr hrec
  · obtain ⟨u, hu, hrec'⟩ := hrec.append hb hlen hready
    cases hx.symm.trans hu
    exact .inr hrec'

/-- A byte of a stream without terminators is stored exactly when it is not noise (R131, R132, R135). -/
theorem Assembled.of_receive (h : Assembled s (withoutNoise bs) t) (hinv : s.Inv) (hidle : s.rxState = .idle)
    (hready : s.msgReady = false) (hb : b ≠ Ascii.semi) (hlen : (withoutNoise (bs ++ [b])).length ≤ 30)
    (hx : receive b t = .ok x) : Assembled s (withoutNoise (bs ++ [b])) x.1 := by
  by_cases hnoise : b ∈ [0x0A#8, 0x0D#8, 0x00#8]
  · rw [withoutNoise_append_noise hnoise] at hlen ⊢
    exact h.noise hinv hidle hready hlen ((classify_noise_iff_mem b).mpr hnoise) hx
  · rw [withoutNoise_append_stored hnoise] at hlen ⊢
    rw [List.length_append, List.length_singleton] at hlen
    have hord := (classify_ord_iff b).mpr (List.not_mem_cons_of_ne_of_not_mem hb hnoise)
    exact h.append hinv hidle hready (by omega) hord hx

end Assembly

/-- Settles O56: the stream's bytes that are not noise are assembled one by one, and the terminator completes them. -/
theorem frameAssembledFromStream : Obligations.FrameAssembledFromStream := by
  intro s bs hinv hidle hready hbs f hpos hle
  have assembles : ∀ pre b, pre ++ [b] <+: bs → ∀ t x, Assembled s.block (withoutNoise pre) t →
      receive b t = .ok x → Assembled s.block (withoutNoise (pre ++ [b])) x.1 := fun pre b hpre t x hP hx =>
    hP.of_receive hinv hidle hready (hbs b (hpre.subset (by simp))) ((hpre.filter _).length_le.trans hle) hx
  obtain ⟨t, ht, h⟩ := execAll_feed_induction (.inl ⟨rfl, rfl⟩) assembles
  have hrec : Received s.block f t.block := h.resolve_left fun hnone => by
    have hnil : f = [] := hnone.1
    simp [hnil] at hpos
  have hord : ∀ b ∈ f, classify b = .ord := fun b hb => by
    obtain ⟨hmem, hnoise⟩ := List.mem_filter.mp hb
    exact (classify_ord_iff b).mpr (List.not_mem_cons_of_ne_of_not_mem (hbs b hmem) (of_decide_eq_true hnoise))
  obtain ⟨u, hu, hrest, hheld⟩ := hrec.complete hord hle hready
  refine ⟨_, execAll_feed_append ht hu, ?_⟩
  dsimp only
  rw [hrest]
  exact ⟨rfl, rfl, hheld, sameTable_of_banks rfl rfl, rfl, rfl, rfl, rfl, rfl, rfl⟩

end Sys2Proof.Machine
end

section
/-! PROOFS of the family 42_message_parser. PARSE as the kind row of byte 0 of the held frame (R161, R162), what a frame
decodes to (R161, R163), and PARSE, the kind rows, POLL and APPLY on this hardware (R165 to R170). -/

namespace Sys2Proof.Machine

variable {p : Params} {n : Nat}

/-! ### PARSE is the kind row of byte 0 -/

/-- The search answers bytes that begin with the cell it starts at (R160). -/
theorem frameFrom_head? {s : Block n} {fuel a : Nat} {f : List Byte} (h : frameFrom s fuel a = .ok f) :
    f.head? = some (s.fb.read a) := by
  cases fuel with
  | zero => cases h
  | succ fuel =>
    rw [frameFrom] at h
    by_cases ha : a < 32
    · rw [memRead_inside s a ha] at h
      dsimp only at h
      split at h
      · cases h; rfl
      · split at h <;> cases h
        rfl
    · rw [memRead_outside s a (Nat.not_lt.mp ha)] at h
      cases h

/-- The parser asks its decoder about the held frame only (R167). -/
theorem parseWith_congr {dec dec' : List Byte → FrameDecode} {s : Block p.nCh}
    (h : ∀ f, heldFrame s = .ok f → dec f = dec' f) : parseWith p dec s = parseWith p dec' s := by
  have hsearch : heldFrame { s with msgReady := false } = heldFrame s := frameFrom_fb _ _ rfl Config.fbCap 0
  unfold parseWith
  dsimp only
  rw [hsearch]
  cases hf : heldFrame s with
  | error e => rfl
  | ok f => dsimp only; rw [h f hf]

/-- PARSE dispatches on byte 0 of the buffer, whatever stands there (R161). -/
theorem parseFrame_dispatch (s : Block p.nCh) :
    parseFrame p s = parseWith p (decodeAs (kindOf (s.fb.read 0))) s := by
  refine parseWith_congr fun f hf => ?_
  rw [decodeFrame, frameFrom_head? hf, Option.bind_some]

/-- The kind row of a byte is the parser with that byte's dispatch (R74, R161). -/
theorem blockOp_decodeKind (kb : Byte) (r : SnapData) (s : Block p.nCh) :
    blockOp p (decodeKind kb) r s = record .parse (parseWith p (decodeAs (kindOf kb)) s) := by
  unfold decodeKind
  split
  case h_1 hk | h_2 hk | h_3 hk => rw [hk]; rfl

/-- PARSE and the kind row of byte 0 are the parser (R161, R162). -/
theorem blockOp_of_kindRow {i : Instr} {s : Block p.nCh} (hi : i ∈ [Instr.parse, decodeKind (s.fb.read 0)])
    (r : SnapData) : blockOp p i r s = record .parse (parseFrame p s) := by
  rcases List.mem_pair.mp hi with rfl | rfl
  · rfl
  · rw [blockOp_decodeKind, parseFrame_dispatch]

/-- Settles O15: both are the parser, and the search answers a frame that begins with `FB[0]`. -/
theorem kindRowIsParse : Obligations.KindRowIsParse := by
  intro s _
  rw [exec_blockOp, exec_blockOp, blockOp_of_kindRow (by simp), blockOp_of_kindRow (by simp)]

/-! ### PARSE of a held frame -/

/-- Byte 0 of the held frame stands in cell 0 (R28). -/
theorem HeldFrame.read_zero {s : Block n} {kb : Byte} {rest : List Byte} (h : HeldFrame s (kb :: rest)) :
    s.fb.read 0 = kb :=
  (Option.some.inj (frameFrom_head? (heldFrame_of s _ h))).symm

/-- What the parser leaves of a block, and the record it answers, when the held frame decodes to `d`: a drop that is
recorded or the message applied (R161 to R167); `parseWith_consumes` is what ties it to the model. -/
def consumed (p : Params) (s : Block p.nCh) : FrameDecode → Block p.nCh × ParseOut
  | .unknown => (raise .parseErrorUnknownKind { s with msgReady := false }, ParseOut.bare .unknown)
  | .malformed => (raise .parseErrorMalformed { s with msgReady := false }, ParseOut.bare .malformed)
  | .ok k ch v => applyMsg p k ch v { s with msgReady := false }

/-- The parser goes by what the held frame decodes to (R167). -/
theorem parseWith_consumes (dec : List Byte → FrameDecode) {s : Block p.nCh} {f : List Byte}
    (hready : s.msgReady = true) (hheld : HeldFrame s f) : parseWith p dec s = .ok (consumed p s (dec f)) := by
  rw [parseWith_held p dec s f hready hheld]
  cases dec f <;> rfl

/-- PARSE and the kind row of the held frame's byte 0 go by what the frame decodes to (R162, R167). -/
theorem exec_of_heldFrame {s : State} {kb : Byte} {rest : List Byte} {i : Instr} {d : FrameDecode}
    (hready : s.block.msgReady = true) (hheld : HeldFrame s.block (kb :: rest))
    (hi : i ∈ [Instr.parse, decodeKind kb]) (hd : decodeFrame (kb :: rest) = d) :
    exec i s = .next { s with
      block := (consumed Config.isc s.block d).1, resp := .parse (consumed Config.isc s.block d).2 } := by
  rw [exec_blockOp, blockOp_of_kindRow (by rwa [hheld.read_zero]), parseFrame,
    parseWith_consumes decodeFrame hready hheld, hd, record_ok, complete_ok]

/-! ### What a frame decodes to -/

/-- The kind bytes are those of the two exact rows of R74. -/
theorem kindOf_eq_none_iff (kb : Byte) : kindOf kb = none ↔ kb ∉ [0x65#8, 0x62#8] := by
  rw [← wf_unknownKind_iff, Instr.wf, decide_eq_true_iff]
  simp

/-- A kind byte has its kind (R74). -/
theorem exists_kindOf {kb : Byte} (h : kb ∈ [0x65#8, 0x62#8]) : ∃ k, kindOf kb = some k :=
  Option.ne_none_iff_exists'.mp fun hnone => (kindOf_eq_none_iff kb).mp hnone h

theorem kindOf_letter (k : Kind) : kindOf (Kind.letter k) = some k := by cases k <;> rfl

/-- A frame whose byte 0 is no kind byte is of unknown kind, whatever follows (R161). -/
theorem decodeFrame_unknown {kb : Byte} (hk : kindOf kb = none) (rest : List Byte) :
    decodeFrame (kb :: rest) = .unknown := by
  simp [decodeFrame, decodeAs, hk]

/-- A frame of a known kind whose body matches decodes to its message (R162). -/
theorem decodeFrame_message {kb : Byte} {k : Kind} {body : List Byte} {ch v : Int} (hk : kindOf kb = some k)
    (hbody : IsBody body ch v) : decodeFrame (kb :: body ++ [Ascii.semi]) = .ok k ch v := by
  have hdecoded := (bodyGrammarDecided body ch v).mpr hbody
  simp [decodeFrame, decodeAs, hk, hdecoded]

/-- A frame of a known kind whose body matches for no values is malformed (R163). -/
theorem decodeFrame_malformed {kb : Byte} {k : Kind} {body : List Byte} (hk : kindOf kb = some k)
    (hbody : ¬∃ ch v, IsBody body ch v) : decodeFrame (kb :: body ++ [Ascii.semi]) = .malformed := by
  have hdecoded : decodeBody body = none :=
    Option.eq_none_iff_forall_ne_some.mpr fun (ch, v) h => hbody ⟨ch, v, (bodyGrammarDecided body ch v).mp h⟩
  simp [decodeFrame, decodeAs, hk, hdecoded]

/-- Settles O10: the UnknownKind row is the kind row of a byte without a kind. -/
theorem parseDropsUnknownKind : Obligations.ParseDropsUnknownKind := by
  intro s kb rest hready hheld hkb i hi
  have hk := (kindOf_eq_none_iff kb).mpr hkb
  have hrow : decodeKind kb = .unknownKind kb := by rw [decodeKind, hk]
  exact exec_of_heldFrame hready hheld (hrow ▸ hi) (decodeFrame_unknown hk rest)

/-- Settles O11: the frame decodes as malformed. -/
theorem parseDropsMalformedBody : Obligations.ParseDropsMalformedBody := by
  intro s kb body hready hheld hkb hbody i hi
  obtain ⟨k, hk⟩ := exists_kindOf hkb
  exact exec_of_heldFrame hready hheld hi (decodeFrame_malformed hk hbody)

/-- Settles O12: the frame decodes to a message, which `apply_msg` drops. -/
theorem parseDropsChannelOutOfRange : Obligations.ParseDropsChannelOutOfRange := by
  intro s kb body ch v hready hheld hkb hbody hch i hi
  obtain ⟨k, hk⟩ := exists_kindOf hkb
  rw [exec_of_heldFrame hready hheld hi (decodeFrame_message hk hbody), consumed, applyMsg_outside _ k ch v _ hch]
  rfl

/-- A message for a channel of the table is one differ update, with its record (R166). -/
theorem applyMsg_channel (k : Kind) (c : Fin p.nCh) (v : Int) (s : Block p.nCh) :
    applyMsg p k (c.val : Int) v s =
      ((differUpdate k c (norm k v) s).1,
        ⟨.applied, k, c.val, (norm k v).toNat, decide (norm k v ≠ (s.chan k c).cur)⟩) := by
  rw [applyMsg_inside p k c.val v s (by omega), ← differUpdate_changed]
  rfl

/-- Settles O13: the message goes through the differ on the block with its frame consumed, whose table is that of the
block before. -/
theorem parseAppliesMessage : Obligations.ParseAppliesMessage := by
  intro s k body c v hready hheld hbody i hi
  have hrow : i ∈ [Instr.parse, decodeKind (Kind.letter k)] := by cases k <;> exact hi
  have hframe : HeldFrame s.block (Kind.letter k :: body ++ [Ascii.semi]) := by cases k <;> exact hheld
  have hexec := exec_of_heldFrame hready hframe hrow (decodeFrame_message (kindOf_letter k) hbody)
  have hconsumed : SameTable s.block { s.block with msgReady := false } := sameTable_of_banks rfl rfl
  rw [consumed, applyMsg_channel, hconsumed k c] at hexec
  refine ⟨_, hexec, ?_, fun k' j h => ?_, ?_, fun a => ?_, ⟨rfl, rfl⟩, ?_, ?_, ?_, rfl⟩
  · rw [differUpdate_chan_same, hconsumed k c]
  · rw [differUpdate_other _ k c _ k' j h, hconsumed k' j]
  · exact differUpdate_errors { s.block with msgReady := false } k c _
  · rw [differUpdate_fb]
  · rw [differUpdate_rxState]
  · rw [differUpdate_rxLen]
  · rw [differUpdate_msgReady]

/-! ### PARSE with nothing held, and POLL -/

/-- PARSE leaves what the parser leaves, and `POLL -` leaves it with the receiver's outputs 0 (R167, R170). -/
theorem exec_of_parseFrame {s : State} {x : Block Config.isc.nCh × ParseOut}
    (hx : parseFrame Config.isc s.block = .ok x) :
    exec .parse s = .next { s with block := x.1, resp := .parse x.2 } ∧
    exec .pollNb s = .next { s with block := x.1, resp := .poll RxOut.held x.2 } :=
  ⟨exec_of_blockOp (i := .parse) (congrArg (record .parse) hx),
    exec_of_blockOp (i := .pollNb) (pollNbOp_of_parseFrame hx)⟩

/-- Settles O9: with no frame held the parser leaves the block. -/
theorem parseWithNothingHeld : Obligations.ParseWithNothingHeld :=
  fun s hready => exec_of_parseFrame (parseWith_idle Config.isc decodeFrame s.block hready)

/-- Settles O16: the receiver completes and keeps the invariant, so the parser completes on what it leaves. -/
theorem pollIsReceiveThenParse : Obligations.PollIsReceiveThenParse := by
  intro b s hs
  constructor
  · obtain ⟨x, hx⟩ := receiveAs_ok (classify b) b s.block
    obtain ⟨y, hy, hidle, -⟩ := parseWith_total decodeFrame (receive_keeps_inv b s.block x hs hx)
    obtain ⟨hparse, -⟩ := exec_of_parseFrame (s := { s with block := x.1, resp := .rxb x.2 }) hy
    exact ⟨_, _, x.2, y.2, exec_of_receive (by simp) hx, rfl, hparse, rfl, hidle,
      exec_of_blockOp (i := .poll b) (pollOp_of_receive_parseFrame hx hy)⟩
  · obtain ⟨y, hy, hidle, -⟩ := parseWith_total decodeFrame hs
    obtain ⟨hparse, hpoll⟩ := exec_of_parseFrame hy
    exact ⟨_, y.2, hparse, rfl, hidle, hpoll⟩

/-! ### APPLY -/

/-- Settles O20: in range APPLY is one differ update with its record. -/
theorem applyInRange : Obligations.ApplyInRange := by
  intro k idx imm s h
  obtain ⟨hfb, hrx⟩ := differUpdate_sameFb_sameReceiver s.block k ⟨idx.toNat, h⟩ (norm k imm.toInt)
  exact ⟨_, exec_of_execFor_next (execFor_apply_inside k idx imm s.toStateOf h), differUpdate_chan_same ..,
    differUpdate_other s.block k _ _, differUpdate_errors .., hfb, hrx, ⟨rfl, rfl⟩,
    congrArg (fun changed => Resp.parse ⟨.applied, k, idx.toNat, (norm k imm.toInt).toNat, changed⟩)
      (differUpdate_changed s.block k _ _)⟩

/-- Settles O21: out of range APPLY is the drop that is recorded. -/
theorem applyOutOfRange : Obligations.ApplyOutOfRange :=
  fun k idx imm s h => exec_of_execFor_next (execFor_apply_outside k idx imm s.toStateOf h)

end Sys2Proof.Machine
end

section
/-! PROOFS of the family 43_event_sink. READ and SNAP of a short reply on this hardware (R191, R196), DRAIN and the
sequence its masks stand for (R194, R195), and SNAP of a complete reply for any parameters (R79, R80, R190). -/

namespace Sys2Proof.Machine

variable {p : Params} {n : Nat}

/-! ### READ -/

/-- Settles O32: READ at any `N_CH`, at this hardware's. -/
theorem readReturnsChannelOrFaults : Obligations.ReadReturnsChannelOrFaults :=
  fun k idx s => ⟨fun h => exec_of_execFor_next (execFor_read_inside k idx s.toStateOf h),
    fun h => exec_of_execFor_fault (execFor_read_outside k idx s.toStateOf h)⟩

/-! ### SNAP of a short reply -/

/-- SNAP on this hardware is SNAP on its block, with the record (R190). -/
theorem exec_of_snapBlock {len ec bc : BitVec 4} {ok : Bool} {s : State} {t : Block Config.isc.nCh}
    (ht : snapBlock Config.isc len.toNat s.snapData s.block = .ok (t, (ok, ec, bc))) :
    exec (.snap len) s = .next { s with block := t, resp := .snap ok ec bc } := by
  have hop : snapOp Config.isc len s.snapData s.block = .ok (t, .snap ok ec bc) := by rw [snapOp, ht, record_ok]
  exact exec_of_blockOp (i := .snap len) hop

/-- A reply of fewer than 9 bytes is recorded and not read (R191). -/
theorem snapBlock_short {len : Nat} (h : len < 9) (r : SnapData) (s : Block p.nCh) :
    snapBlock p len r s = .ok (raise .busTransactionFailure s, (false, 0, 0)) := by
  rw [snapBlock, if_neg (Nat.lt_asymm h), if_pos h]

/-- Settles O27: the error recorded is `BusTransactionFailure`. -/
theorem snapShortReplyRecorded : Obligations.SnapShortReplyRecorded :=
  fun _ s h => exec_of_snapBlock (snapBlock_short h s.snapData s.block)

/-! ### DRAIN -/

/-- DRAIN on this hardware leaves the drained block and answers its masks; it faults in no state (R194). -/
theorem exec_drain (s : State) :
    exec .drain s = .next { s with
      block := (drainBlock s.block).1, resp := .drain (chgMask s.block.enc) (chgMask s.block.btn) } := rfl

/-- Settles O29: the masks are those of the banks before the clearing, which writes the banks only. -/
theorem drainReadsAndClears : Obligations.DrainReadsAndClears :=
  fun s => ⟨_, _, _, exec_drain s, rfl,
    fun i => ⟨chgMask_bit s.block.enc i i.isLt, chgMask_bit s.block.btn i i.isLt⟩, drain_chan s.block,
    ⟨rfl, rfl, rfl⟩, fun _ => rfl, ⟨rfl, rfl, rfl, rfl, rfl, rfl⟩, ⟨rfl, rfl⟩⟩

/-! ### The drain sequence -/

/-- A bit at or above the width is 0, so the set bits' indices are the members of the list (R195). -/
theorem mem_maskIndices_iff (m : BitVec n) (i : Nat) : i ∈ maskIndices m ↔ m.getLsbD i = true :=
  (mem_maskIndices m i).trans ⟨And.right, fun h => ⟨BitVec.lt_of_getLsbD h, h⟩⟩

/-- The set bits' indices are listed in ascending order (R195). -/
theorem maskIndices_ascending (m : BitVec n) : (maskIndices m).Pairwise (· < ·) :=
  List.pairwise_lt_range.filter _

/-- The indices of one kind stand in the drain order (R195). -/
theorem drainBefore_of_maskIndices (k : Kind) (m : BitVec n) :
    ((maskIndices m).map (fun i => (k, i))).Pairwise DrainBefore :=
  List.pairwise_map.mpr ((maskIndices_ascending m).imp fun h => .inr ⟨rfl, h⟩)

/-- The pairs of each kind in the sequence are the set bits of that kind's mask (R195). -/
theorem mem_drainSequence_iff (em bm : BitVec n) (k : Kind) (i : Nat) :
    (k, i) ∈ drainSequence em bm ↔ (k = .encoder ∧ i ∈ maskIndices em) ∨ (k = .button ∧ i ∈ maskIndices bm) := by
  cases k <;> simp [drainSequence]

/-- Settles O31: within a kind the indices ascend, and an encoder goes before every button. -/
theorem drainSequenceOrdered : Obligations.DrainSequenceOrdered := by
  refine fun n em bm => ⟨fun i => ?_, ?_⟩
  · simp [mem_drainSequence_iff, mem_maskIndices_iff]
  · refine List.pairwise_append.mpr
      ⟨drainBefore_of_maskIndices .encoder em, drainBefore_of_maskIndices .button bm, fun x hx y hy => ?_⟩
    obtain ⟨_, -, rfl⟩ := List.mem_map.mp hx
    obtain ⟨_, -, rfl⟩ := List.mem_map.mp hy
    exact .inl ⟨rfl, rfl⟩

/-! ### The reply -/

/-- The word of an encoder is its high byte times 256 plus its low byte, at the positions of R82 on the port (R79). -/
theorem replyWord_eq_ofNat (r : SnapData) (i : Nat) :
    replyWord r i = BitVec.ofNat 16 ((r.extractLsb' (64 - 8 * (2 * i)) 8).toNat * 256 +
      (r.extractLsb' (64 - 8 * (2 * i + 1)) 8).toNat) := by
  have hpos (j : Nat) : replyByte r j = r.extractLsb' (64 - 8 * j) 8 := by rw [replyByte, Nat.mul_sub]
  rw [replyWord, hpos, hpos]
  generalize r.extractLsb' (64 - 8 * (2 * i)) 8 = hi
  generalize r.extractLsb' (64 - 8 * (2 * i + 1)) 8 = lo
  apply BitVec.eq_of_toNat_eq
  rw [BitVec.toNat_append, ← Nat.shiftLeft_add_eq_or_of_lt lo.isLt, Nat.shiftLeft_eq, BitVec.toNat_ofNat]
  omega

/-- The bit of a button is a bit of the port's lowest byte (R80, R82). -/
theorem replyBtn_eq_ite (r : SnapData) (i : Nat) : replyBtn r i = if r.getLsbD (7 - i) then 1 else 0 := by
  have hbit : 7 - i < 8 := by omega
  simp [replyBtn, replyByte, hbit]

/-! ### SNAP's loop over one bank -/

section Bank

variable (k : Kind) (f : Nat → Int) (s : Block p.nCh)

/-- A channel below 4 goes through the differ with its sample, and its mask bit says whether it differed (R190). -/
theorem snapBank_inside {i : Fin p.nCh} (hi : i.val < 4) :
    (snapBank p k f Config.busChannels s).1.chan k i = (s.chan k i).updated (norm k (f i.val)) ∧
    (snapBank p k f Config.busChannels s).2.getLsbD i.val = decide (norm k (f i.val) ≠ (s.chan k i).cur) := by
  obtain ⟨hchan, hmask⟩ := snapBank_spec p k f Config.busChannels (Nat.le_refl 4) s
  exact ⟨(hchan k i).trans (dif_pos ⟨rfl, hi⟩), (hmask i.val hi).trans (dif_pos ⟨hi, i.isLt⟩)⟩

/-- A channel at or above 4 is not touched (R190). -/
theorem snapBank_beyond {i : Fin p.nCh} (hi : 4 ≤ i.val) (k' : Kind) :
    (snapBank p k f Config.busChannels s).1.chan k' i = s.chan k' i :=
  ((snapBank_spec p k f Config.busChannels (Nat.le_refl 4) s).1 k' i).trans (dif_neg fun h => Nat.not_lt.mpr hi h.2)

/-- The mask bit of a channel that does not exist is 0 (R190). -/
theorem snapBank_mask_missing {j : Nat} (hj : p.nCh ≤ j) :
    (snapBank p k f Config.busChannels s).2.getLsbD j = false := by
  by_cases h4 : j < 4
  · exact ((snapBank_spec p k f Config.busChannels (Nat.le_refl 4) s).2 j h4).trans
      (dif_neg fun h => Nat.not_lt.mpr hj h.2)
  · exact BitVec.getLsbD_of_ge _ _ (Nat.not_lt.mp h4)

end Bank

/-! ### SNAP of a complete reply -/

/-- The encoder loop of SNAP: the block after it and the mask it answers. -/
def snapEncoders (p : Params) (r : SnapData) (s : Block p.nCh) : Block p.nCh × BitVec 4 :=
  snapBank p .encoder (replyEnc p r) Config.busChannels s

/-- The button loop of SNAP, which runs on what the encoder loop leaves; `snapBlock_whole` ties both to the model. -/
def snapButtons (p : Params) (r : SnapData) (s : Block p.nCh) : Block p.nCh × BitVec 4 :=
  snapBank p .button (replyBtn r) Config.busChannels (snapEncoders p r s).1

/-- What records no error twice records none (R244). -/
theorem SameErrors.trans {s t u : Block n} (hst : SameErrors s t) (htu : SameErrors t u) : SameErrors s u := by
  obtain ⟨hovf, hunk, hmal, hrng, hbus, hlast⟩ := htu
  rwa [SameErrors, hovf, hunk, hmal, hrng, hbus, hlast]

section WholeReply

variable (r : SnapData) (s : Block p.nCh)

/-- SNAP of a complete reply leaves what the two loops leave (R190). -/
theorem snapBlock_whole :
    snapBlock p 9 r s = .ok ((snapButtons p r s).1, (true, (snapEncoders p r s).2, (snapButtons p r s).2)) := rfl

/-- An encoder below 4 after SNAP, and its mask bit: the button loop leaves the encoders (R190). -/
theorem snapButtons_encoder {i : Fin p.nCh} (hi : i.val < 4) :
    (snapButtons p r s).1.chan .encoder i = (s.chan .encoder i).updated (norm .encoder (replyEnc p r i.val)) ∧
    (snapEncoders p r s).2.getLsbD i.val = decide (norm .encoder (replyEnc p r i.val) ≠ (s.chan .encoder i).cur) := by
  obtain ⟨hchan, hmask⟩ := snapBank_inside .encoder (replyEnc p r) s hi
  exact ⟨(snapBank_chan_other (by decide) _ _ i).trans hchan, hmask⟩

/-- A button below 4 after SNAP, and its mask bit: the encoder loop leaves the buttons (R190). -/
theorem snapButtons_button {i : Fin p.nCh} (hi : i.val < 4) :
    (snapButtons p r s).1.chan .button i = (s.chan .button i).updated (norm .button (replyBtn r i.val)) ∧
    (snapButtons p r s).2.getLsbD i.val = decide (norm .button (replyBtn r i.val) ≠ (s.chan .button i).cur) := by
  have hbefore : (snapEncoders p r s).1.chan .button i = s.chan .button i := snapBank_chan_other (by decide) _ s i
  rw [← hbefore]
  exact snapBank_inside .button (replyBtn r) (snapEncoders p r s).1 hi

/-- SNAP of a complete reply writes the banks only (R190, R192). -/
theorem snapButtons_frame :
    SameReceiver s (snapButtons p r s).1 ∧ SameFb s (snapButtons p r s).1 ∧ SameErrors s (snapButtons p r s).1 := by
  obtain ⟨hstate, hlen, hready, hfb, herrors⟩ := snapBank_keeps p .encoder (replyEnc p r) Config.busChannels s
  obtain ⟨hstate', hlen', hready', hfb', herrors'⟩ :=
    snapBank_keeps p .button (replyBtn r) Config.busChannels (snapEncoders p r s).1
  exact ⟨⟨hstate'.trans hstate, hlen'.trans hlen, hready'.trans hready⟩,
    fun a => congrArg (·.read a) (hfb'.trans hfb), herrors.trans herrors'⟩

end WholeReply

/-- Settles O26: the two loops run over channels 0 to 3 of their bank, each skipping those that do not exist. -/
theorem snapForAnyParameters : Obligations.SnapForAnyParameters := by
  refine fun p r s => ⟨_, _, _, snapBlock_whole r s, fun i hi => ?_, fun i hi k => ?_, fun j hj => ?_⟩
  · rw [← replyWord_eq_ofNat, ← replyBtn_eq_ite]
    exact and_assoc.mp ⟨snapButtons_encoder r s hi, snapButtons_button r s hi⟩
  · exact (snapBank_beyond .button _ _ hi k).trans (snapBank_beyond .encoder _ s hi k)
  · exact ⟨snapBank_mask_missing .encoder _ s hj, snapBank_mask_missing .button _ _ hj⟩

/-- Settles O25: this hardware has the four channels of a reply and reads its words as two's complement. The two loops
are replaced by variables before the goal is taken apart, since comparing states would unfold them. -/
theorem snapAppliesWholeReply : Obligations.SnapAppliesWholeReply := by
  intro s
  have hexec := exec_of_snapBlock (len := 9#4) (snapBlock_whole s.snapData s.block)
  obtain ⟨hreceiver, hfb, herrors⟩ := snapButtons_frame (p := Config.isc) s.snapData s.block
  have hencoder (i : Fin Config.isc.nCh) := snapButtons_encoder s.snapData s.block i.isLt
  have hbutton (i : Fin Config.isc.nCh) := snapButtons_button s.snapData s.block i.isLt
  generalize snapEncoders Config.isc s.snapData s.block = e at *
  generalize snapButtons Config.isc s.snapData s.block = b at *
  refine ⟨_, _, _, hexec, rfl, hreceiver, hfb, herrors, ⟨rfl, rfl⟩, fun i => ?_⟩
  rw [← replyWord_eq_ofNat, ← replyBtn_eq_ite]
  exact and_assoc.mp ⟨hencoder i, hbutton i⟩

end Sys2Proof.Machine
end

section
/-! PROOFS of the family 44_status_control. NOP and RDSTAT (R220, R221), with what the level output `any_changed_o` says
of the channels (R37). -/

namespace Sys2Proof.Machine

/-- The OR of a bank's flags is set exactly when some channel's flag is (R37). -/
theorem any_chg_iff {w n : Nat} (v : Vector (Chan w) n) :
    v.toList.any (fun c => c.chg) = true ↔ ∃ i : Fin n, v[i].chg = true := by
  rw [Vector.any_toList, Vector.any_eq_true, Fin.exists_iff]
  rfl

/-- `any_changed_o` is 1 exactly when some channel of either bank has its flag set (R37). -/
theorem anyChangedO_iff {n : Nat} (s : Block n) :
    s.anyChangedO = true ↔ ∃ k i, (s.chan k i).chg = true := by
  rw [Block.anyChangedO, Bool.or_eq_true, any_chg_iff, any_chg_iff]
  constructor
  · rintro (⟨i, hi⟩ | ⟨i, hi⟩)
    · exact ⟨.encoder, i, hi⟩
    · exact ⟨.button, i, hi⟩
  · rintro ⟨_ | _, i, hi⟩
    · exact .inl ⟨i, hi⟩
    · exact .inr ⟨i, hi⟩

/-- Settles O34: the record is the block's status, whose last field is the level output `any_changed_o`. -/
theorem rdstatReturnsStatus : Obligations.RdstatReturnsStatus :=
  fun s => ⟨_, anyChangedO_iff s.block, exec_of_blockOp (i := .rdstat) rfl⟩

/-- Settles O33: NOP's operation answers its block with the empty record. -/
theorem nopAnswersNothing : Obligations.NopAnswersNothing :=
  fun _ => exec_of_blockOp (i := .nop) rfl

end Sys2Proof.Machine
end

section
/-! PROOFS of the family 60_exceptions. Recording an error (R240, R241), the errors an operation records (R244), and the
command words that are host faults (R243). -/

namespace Sys2Proof.Machine

variable {p : Params} {n : Nat}

/-! ### Recording an error -/

/-- Settles O50: the code and the counter are those of the error, every other field is left, and the codes are R240's. -/
theorem raiseRecordsOneError : Obligations.RaiseRecordsOneError :=
  fun _ e s => ⟨raise_errorRecorded e s, ⟨raise_rxState e s, raise_rxLen e s, raise_msgReady e s⟩,
    fun a => congrArg (·.read a) (raise_fb e s), raise_chan e s, rfl⟩

/-! ### At most one error -/

/-- The errors of `t` are those of `s`, or those of `s` after one of the errors `es` (R244). -/
def RecordsOneOf (es : List ErrorKind) (s t : Block n) : Prop :=
  SameErrors s t ∨ ∃ e ∈ es, ErrorRecorded e s t

section Records

variable {es es' : List ErrorKind} {s t u : Block n}

/-- An error recorded where none was recorded before is the one recorded. -/
theorem ErrorRecorded.of_sameErrors {e : ErrorKind} (hst : SameErrors s t) (htu : ErrorRecorded e t u) :
    ErrorRecorded e s u := by
  obtain ⟨hovf, hunk, hmal, hrng, hbus, -⟩ := hst
  rwa [ErrorRecorded, hovf, hunk, hmal, hrng, hbus] at htu

theorem RecordsOneOf.of_sameErrors (hst : SameErrors s t) (htu : RecordsOneOf es t u) : RecordsOneOf es s u :=
  htu.imp hst.trans fun ⟨e, he, hrec⟩ => ⟨e, he, hrec.of_sameErrors hst⟩

theorem RecordsOneOf.mono (hsub : es ⊆ es') (h : RecordsOneOf es s t) : RecordsOneOf es' s t :=
  h.imp_right fun ⟨e, he, hrec⟩ => ⟨e, hsub he, hrec⟩

/-- A block left alone has its errors left alone. -/
theorem recordsOneOf_of_eq (h : t = s) : RecordsOneOf es s t := h ▸ .inl ⟨rfl, rfl, rfl, rfl, rfl, rfl⟩

/-- Recording one of the errors `es` records one of them (R241). -/
theorem raise_recordsOneOf {e : ErrorKind} (he : e ∈ es) (s : Block n) : RecordsOneOf es s (raise e s) :=
  .inr ⟨e, he, raise_errorRecorded e s⟩

end Records

/-- An overflow leaves no frame held (R129). -/
theorem receiveAs_overflow_not_held {cls : ByteClass} {b : Byte} {s : Block n} {x : Block n × RxOut}
    (hx : receiveAs cls b s = .ok x) (hovf : x.2.overflow = true) : x.1.msgReady = false := by
  rcases receiveAs_cases cls b s with ⟨-, e⟩ | ⟨hready, -, e⟩ | ⟨-, -, -, e⟩ | ⟨-, -, -, -, e⟩ | ⟨-, -, -, -, e⟩ |
    ⟨-, -, -, -, e⟩ <;> cases hx.symm.trans e
  case inr.inl => simpa using hready
  all_goals cases hovf

/-- The receiver records nothing, or it records the overflow and then holds no frame (R129). -/
theorem receiveAs_records {cls : ByteClass} {b : Byte} {s : Block n} {x : Block n × RxOut}
    (hx : receiveAs cls b s = .ok x) :
    SameErrors s x.1 ∨ (ErrorRecorded .transportOverflow s x.1 ∧ x.1.msgReady = false) := by
  obtain ⟨hsame, hrecorded⟩ := receiveAs_errors hx
  cases hovf : x.2.overflow with
  | false => exact .inl (hsame hovf)
  | true => exact .inr ⟨hrecorded hovf, receiveAs_overflow_not_held hx hovf⟩

theorem receiveAs_recordsOneOf {cls : ByteClass} {b : Byte} {s : Block n} {x : Block n × RxOut}
    (hx : receiveAs cls b s = .ok x) : RecordsOneOf [.transportOverflow] s x.1 :=
  (receiveAs_records hx).imp_right fun ⟨hrec, _⟩ => ⟨_, List.mem_singleton_self _, hrec⟩

/-- A message goes through the differ, which records nothing, or is dropped (R165, R166). -/
theorem applyMsg_recordsOneOf (k : Kind) (ch v : Int) (s : Block p.nCh) :
    RecordsOneOf [.channelOutOfRange] s (applyMsg p k ch v s).1 := by
  unfold applyMsg
  split
  · exact .inl (differUpdate_errors s k _ _)
  · exact raise_recordsOneOf (List.mem_singleton_self _) s

/-- The errors that consuming a frame may record, by what the frame decodes to (R161 to R165). -/
def errorsOfDecode : FrameDecode → List ErrorKind
  | .unknown => [.parseErrorUnknownKind]
  | .malformed => [.parseErrorMalformed]
  | .ok _ _ _ => [.channelOutOfRange]

theorem consumed_recordsOneOf (s : Block p.nCh) (d : FrameDecode) :
    RecordsOneOf (errorsOfDecode d) s (consumed p s d).1 := by
  have release : SameErrors s { s with msgReady := false } := ⟨rfl, rfl, rfl, rfl, rfl, rfl⟩
  cases d with
  | unknown | malformed => exact .of_sameErrors release (raise_recordsOneOf (List.mem_singleton_self _) _)
  | ok k ch v => exact .of_sameErrors release (applyMsg_recordsOneOf k ch v _)

/-- Where the parser completes it leaves a block with no frame held, or it consumes a frame (R167). -/
theorem parseWith_eq_ok {dec : List Byte → FrameDecode} {s : Block p.nCh} {x : Block p.nCh × ParseOut}
    (hx : parseWith p dec s = .ok x) : x.1 = s ∨ ∃ f, x = consumed p s (dec f) := by
  unfold parseWith at hx
  split at hx
  · dsimp only at hx
    split at hx
    · cases hx
    next f _ =>
      refine .inr ⟨f, ?_⟩
      cases hd : dec f <;> rw [hd] at hx <;> cases hx <;> rfl
  · cases hx; exact .inl rfl

/-- The parser records one of the errors its decoder's answers stand for (R244). -/
theorem parseWith_recordsOneOf {es : List ErrorKind} {dec : List Byte → FrameDecode}
    (hdec : ∀ f, errorsOfDecode (dec f) ⊆ es) {s : Block p.nCh} {x : Block p.nCh × ParseOut}
    (hx : parseWith p dec s = .ok x) : RecordsOneOf es s x.1 := by
  rcases parseWith_eq_ok hx with h | ⟨f, rfl⟩
  · exact recordsOneOf_of_eq h
  · exact (consumed_recordsOneOf s (dec f)).mono (hdec f)

/-- A decoded frame is of unknown kind, malformed or a message (R162). -/
theorem errorsOfDecode_subset (d : FrameDecode) :
    errorsOfDecode d ⊆ [.parseErrorUnknownKind, .parseErrorMalformed, .channelOutOfRange] := by
  cases d <;> simp [errorsOfDecode]

/-- A frame whose kind is known is malformed or a message (R161, R162). -/
theorem errorsOfDecode_known_subset (k : Kind) (f : List Byte) :
    errorsOfDecode (decodeAs (some k) f) ⊆ [.parseErrorMalformed, .channelOutOfRange] := by
  unfold decodeAs
  dsimp only
  split <;> simp [errorsOfDecode]

theorem parseFrame_recordsOneOf {s : Block p.nCh} {x : Block p.nCh × ParseOut} (hx : parseFrame p s = .ok x) :
    RecordsOneOf [.parseErrorUnknownKind, .parseErrorMalformed, .channelOutOfRange] s x.1 :=
  parseWith_recordsOneOf (fun _ => errorsOfDecode_subset _) hx

/-- Where `POLL -` completes it is the parser (R170). -/
theorem pollBlock_none_eq_ok {s : Block p.nCh} {x} (hx : pollBlock p none s = .ok x) :
    ∃ o, parseFrame p s = .ok (x.1, o) := by
  unfold pollBlock at hx
  dsimp only at hx
  split at hx <;> cases hx
  next hp => exact ⟨_, hp⟩

/-- Where POLL with a byte completes it is the receiver and then the parser (R170). -/
theorem pollBlock_some_eq_ok {b : Byte} {s : Block p.nCh} {x} (hx : pollBlock p (some b) s = .ok x) :
    ∃ y o, receive b s = .ok y ∧ parseFrame p y.1 = .ok (x.1, o) := by
  unfold pollBlock at hx
  dsimp only at hx
  split at hx
  · cases hx
  next hr =>
    split at hx <;> cases hx
    next hp => exact ⟨_, _, hr, hp⟩

/-- `POLL -` records an error of the parser (R170). -/
theorem pollBlock_none_recordsOneOf {s : Block p.nCh} {x} (hx : pollBlock p none s = .ok x) :
    RecordsOneOf [.parseErrorUnknownKind, .parseErrorMalformed, .channelOutOfRange] s x.1 := by
  obtain ⟨o, hp⟩ := pollBlock_none_eq_ok hx
  exact parseFrame_recordsOneOf hp

/-- POLL with a byte records at most one error: after an overflow there is no frame to parse (R129, R170, R244). -/
theorem pollBlock_some_recordsOneOf {b : Byte} {s : Block p.nCh} {x} (hx : pollBlock p (some b) s = .ok x) :
    RecordsOneOf [.transportOverflow, .parseErrorUnknownKind, .parseErrorMalformed, .channelOutOfRange] s x.1 := by
  obtain ⟨y, o, hr, hp⟩ := pollBlock_some_eq_ok hx
  rcases receiveAs_records hr with hsame | ⟨hrec, hready⟩
  · exact ((parseFrame_recordsOneOf hp).of_sameErrors hsame).mono (List.subset_cons_self _ _)
  · obtain ⟨hsame, -⟩ := Prod.mk.inj (Except.ok.inj (hp.symm.trans (parseWith_idle p decodeFrame y.1 hready)))
    exact .inr ⟨_, List.mem_cons_self, hsame ▸ hrec⟩

/-- DIFF records nothing (R105). -/
theorem diffBlock_recordsOneOf {k : Kind} {idx : Nat} {v : Int} {s : Block p.nCh} {x}
    (hx : diffBlock p k idx v s = .ok x) : RecordsOneOf [] s x.1 := by
  unfold diffBlock at hx
  split at hx <;> cases hx
  exact .inl (differUpdate_errors s k _ _)

/-- SNAP of a complete reply records nothing, of a shorter one the bus failure (R190, R191). -/
theorem snapBlock_recordsOneOf {len : Nat} {r : SnapData} {s : Block p.nCh} {x} (hx : snapBlock p len r s = .ok x) :
    RecordsOneOf [.busTransactionFailure] s x.1 := by
  unfold snapBlock at hx
  split at hx
  · cases hx
  split at hx <;> cases hx
  · exact raise_recordsOneOf (List.mem_singleton_self _) s
  · obtain ⟨-, -, hsame⟩ := snapButtons_frame r s
    exact .inl hsame

/-- An operation that completes records no error or one of its own (R244). -/
theorem blockOp_recordsOneOf {i : Instr} {r : SnapData} {s : Block p.nCh} {y : Block p.nCh × Resp p.nCh}
    (hy : blockOp p i r s = .ok y) : RecordsOneOf (errorsOf i) s y.1 := by
  cases i with
  | nop | rdstat => cases hy; exact recordsOneOf_of_eq rfl
  | reservedAB | reservedCF => cases hy
  | rxb | term | noiseNul | noiseLf | noiseCr | ord => exact record_block (fun _ => receiveAs_recordsOneOf) hy
  | parse => exact record_block (fun _ => parseFrame_recordsOneOf) hy
  | encoderUpdate | buttonUpdate =>
    exact record_block (fun _ => parseWith_recordsOneOf (errorsOfDecode_known_subset _)) hy
  | unknownKind =>
    exact record_block (fun _ => parseWith_recordsOneOf (dec := decodeAs none) fun _ => List.Subset.refl _) hy
  | poll b => exact record_block (fun _ => pollBlock_some_recordsOneOf) (show pollOp p b s = .ok y from hy)
  | pollNb => exact record_block (fun _ => pollBlock_none_recordsOneOf) (show pollNbOp p s = .ok y from hy)
  | apply => cases hy; exact applyMsg_recordsOneOf _ _ _ s
  | diff k idx imm => exact record_block (fun _ => diffBlock_recordsOneOf) (show diffOp p k idx imm s = .ok y from hy)
  | snap len => exact record_block (fun _ => snapBlock_recordsOneOf) (show snapOp p len r s = .ok y from hy)
  | drain => cases hy; exact .inl ⟨rfl, rfl, rfl, rfl, rfl, rfl⟩
  | read k idx =>
    exact recordsOneOf_of_eq
      (record_block (P := (· = s)) (fun _ => readBlock_block) (show readOp p k idx s = .ok y from hy))

/-- Settles O49: what an operation leaves is what it does to the block, which records no error or one of its own. -/
theorem atMostOneErrorRecorded : Obligations.AtMostOneErrorRecorded := by
  intro i s t ht
  obtain ⟨y, hy, rfl⟩ := exec_next ht
  exact blockOp_recordsOneOf hy

/-! ### Host faults -/

/-- The operations that are host faults with `n` channels in each bank (R90, R105, R190, R196); `exec_of_hostFault` and
`exec_of_not_hostFault` are what ties it to the model. -/
def IsHostFault (n : Nat) : Instr → Prop
  | .reservedAB _ => True
  | .reservedCF _ => True
  | .snap len => 9 < len.toNat
  | .diff _ idx _ => n ≤ idx.toNat
  | .read _ idx => n ≤ idx.toNat
  | _ => False

/-- Such an operation faults in every state, and not for an access to the frame buffer (R243). -/
theorem exec_of_hostFault {i : Instr} (hi : IsHostFault Config.isc.nCh i) (s : State) :
    ∃ f, f ≠ .fbIndexOutOfRange ∧ exec i s = .fault f := by
  cases i with
  | reservedAB | reservedCF => exact ⟨.reservedOpcode, nofun, rfl⟩
  | snap len => exact ⟨.snapLengthOver9, nofun, (snapOverlongFaults len s hi).1⟩
  | diff k idx imm => exact ⟨.diffIndexOutOfRange, nofun, (diffStoresOrFaults k idx imm s).2 hi⟩
  | read k idx => exact ⟨.readIndexOutOfRange, nofun, (readReturnsChannelOrFaults k idx s).2 hi⟩
  | _ => exact hi.elim

/-- SNAP completes with up to 9 bytes (R190, R191). -/
theorem snapBlock_completes {len : Nat} (h : len ≤ 9) (r : SnapData) (s : Block p.nCh) :
    ∃ x, snapBlock p len r s = .ok x := by
  rcases Nat.lt_or_eq_of_le h with hlt | rfl
  · exact ⟨_, snapBlock_short hlt r s⟩
  · exact ⟨_, snapBlock_whole r s⟩

/-- Under the invariant every other operation completes (R243). -/
theorem exec_of_not_hostFault {i : Instr} (hi : ¬IsHostFault Config.isc.nCh i) {s : State} (hs : s.Inv) :
    ∃ t, exec i s = .next t := by
  have receiver {cls : ByteClass} {b : Byte}
      (hop : blockOp Config.isc i s.snapData s.block = record .rxb (receiveAs cls b s.block)) :
      ∃ t, exec i s = .next t := by
    obtain ⟨x, hx⟩ := receiveAs_ok cls b s.block
    exact ⟨_, exec_of_blockOp (hop.trans (congrArg (record .rxb) hx))⟩
  have parser {b : Byte} (hi : i ∈ [Instr.parse, .pollNb, .encoderUpdate, .buttonUpdate, .unknownKind b]) :
      ∃ t, exec i s = .next t :=
    ((parserCompletesUnderInvariant b s hs).1 i hi).imp fun _ h => h.1
  cases i with
  | nop | rdstat | drain | apply => exact ⟨_, rfl⟩
  | reservedAB | reservedCF => exact absurd trivial hi
  | rxb | term | noiseNul | noiseLf | noiseCr | ord => exact receiver rfl
  | parse | pollNb | encoderUpdate | buttonUpdate => exact parser (b := 0) (by simp)
  | unknownKind b => exact parser (b := b) (by simp)
  | poll b => exact (parserCompletesUnderInvariant b s hs).2.imp fun _ h => h.1
  | diff k idx imm => exact ((diffStoresOrFaults k idx imm s).1 (Nat.not_le.mp hi)).imp fun _ h => h.1
  | snap len =>
    obtain ⟨x, hx⟩ := snapBlock_completes (Nat.not_lt.mp hi) s.snapData s.block
    exact ⟨_, exec_of_snapBlock hx⟩
  | read k idx => exact ⟨_, (readReturnsChannelOrFaults k idx s).1 (Nat.not_le.mp hi)⟩

/-- The word of an operation that is a host fault is one, by the operation or by the decoder (R91, R243). -/
theorem runCmd_of_hostFault {i : Instr} {w : CmdWord} (hw : encode i = .cmd w)
    (hi : IsHostFault Config.isc.nCh i) (s : State) : ∃ f, f ≠ .fbIndexOutOfRange ∧ runCmd w s = .fault f := by
  have hdec := decodeCmd_of_encode hw
  split at hdec
  · rw [runCmd_of_ok hdec]
    exact exec_of_hostFault hi s
  · exact ⟨.snapLengthOver9, nofun, runCmd_of_error hdec s⟩

/-- The word of every other operation completes under the invariant: the decoder rejects SNAP's overlong words only. -/
theorem runCmd_of_not_hostFault {i : Instr} {w : CmdWord} (hw : encode i = .cmd w)
    (hi : ¬IsHostFault Config.isc.nCh i) {s : State} (hs : s.Inv) : ∃ t, runCmd w s = .next t := by
  have hwf : i.wf = true := by
    by_contra hwf
    obtain ⟨len, rfl, hlen⟩ := eq_snap_of_not_wf hw hwf
    exact hi hlen
  rw [runCmd_of_ok ((decodeCmd_of_encode hw).trans (if_pos hwf))]
  exact exec_of_not_hostFault hi hs

/-- `OP` is read back from a word made of its fields (R88). -/
@[simp] theorem toWord_op (f : CmdFields) : f.toWord.extractLsb' 28 4 = f.op :=
  congrArg CmdFields.op (ofWord_toWord f)

/-- The operations that are host faults by the fields of their words: `OP` is reserved, SNAP is not well formed, DIFF
and READ have their index out of range (R90, R243). -/
theorem hostFault_iff_fields {i : Instr} {w : CmdWord} (hw : encode i = .cmd w) (n : Nat) :
    IsHostFault n i ↔ 10 ≤ (w.extractLsb' 28 4).toNat ∨ i.wf ≠ true ∨
      ((w.extractLsb' 28 4 = 5#4 ∨ w.extractLsb' 28 4 = 8#4) ∧ n ≤ (w.extractLsb' 16 8).toNat) := by
  cases i with
  | reservedAB low =>
    cases hw
    have hop := starts_101_iff.mp (BitVec.extractLsb'_append_eq_left (a := 0b101#3) (b := low))
    exact iff_of_true trivial (.inl (show 10 ≤ (CmdFields.ofWord _).op.toNat by omega))
  | reservedCF low =>
    cases hw
    have hop := starts_11_iff.mp (BitVec.extractLsb'_append_eq_left (a := 0b11#2) (b := low))
    exact iff_of_true trivial (.inl (show 10 ≤ (CmdFields.ofWord _).op.toNat by omega))
  | term | noiseNul | noiseLf | noiseCr | ord | encoderUpdate | buttonUpdate | unknownKind => cases hw
  | _ => cases hw; simp [IsHostFault, cmdWord, Instr.wf]

/-- A word with `OP` in 0xA..0xF, as a range (R90). -/
theorem reserved_iff_range (w : CmdWord) : 10 ≤ (w.extractLsb' 28 4).toNat ↔ 0xA0000000 ≤ w.toNat := by
  have hop : (w.extractLsb' 28 4).toNat = w.toNat / 2 ^ 28 := op_toNat w
  omega

/-- The words of an ill-formed instruction, as a range: SNAP with `n` above 9 (R91). -/
theorem not_wf_iff_range {i : Instr} {w : CmdWord} (hw : encode i = .cmd w) :
    i.wf ≠ true ↔ 0x6000000A ≤ w.toNat ∧ w.toNat ≤ 0x6000000F := by
  rw [← decodeCmd_overlong_iff_range, decodeCmd_of_encode hw]
  split <;> simp_all

/-- A word rejected for an unused field matches no row (R89, R91). -/
theorem no_row_of_unusedField {w : CmdWord} (h : decodeCmd w = .error .unusedField) :
    ∀ r ∈ cmdRows, r.matches w = false :=
  fun _ hr => Bool.eq_false_iff.mpr fun hmatch => decodeCmd_ne_unusedField_of_matches hr hmatch h

/-- Settles O51: a word that matches no row is a host fault; any other is the code of an instruction, and R243's other
clauses say by its fields that the instruction is a host fault. -/
theorem hostFaultsExactly : Obligations.HostFaultsExactly := by
  intro w s hs bad
  rcases decodeCmd_encoded w with he | ⟨i, hi⟩
  · exact ⟨fun _ => ⟨.unusedField, nofun, runCmd_of_error he s⟩,
      fun hgood => absurd (.inr (.inl (no_row_of_unusedField he))) hgood⟩
  · obtain ⟨r, hr, -, hmatch⟩ := cmdRow_of_encode hi
    have hrow : ¬∀ r ∈ cmdRows, r.matches w = false := fun h => Bool.false_ne_true ((h r hr).symm.trans hmatch)
    have hbad : bad ↔ IsHostFault Config.isc.nCh i := by
      rw [hostFault_iff_fields hi, reserved_iff_range, not_wf_iff_range hi]
      exact or_congr_right (or_iff_right hrow)
    exact ⟨fun h => runCmd_of_hostFault hi (hbad.mp h) s, fun h => runCmd_of_not_hostFault hi (h ∘ hbad.mpr) hs⟩

end Sys2Proof.Machine
end

section
/-! PROOFS of the family 70_reset_and_hazards. The values that reset writes and the level outputs (R271, R272, R37), the
hold that a PARSE lifts (R276), and a run as its commands in order, none of which sees a later one (R285, R61). -/

namespace Sys2Proof.Machine

/-! ### Reset and the level outputs -/

/-- A reset taken from the ports, with no command beside it, is the reset step (R270, R271). -/
theorem step_of_reset {s : State} {x : PortInput} {rest : List PortInput} (hs : s.inputs = x :: rest)
    (hrst : x.rst = true) (hcmd : x.cmd = none) :
    step s = .next (applyReset { s with inputs := rest, snapData := x.snapData }) := by
  simp [step_of_inputs hs, runInput, runInputBy, hrst, hcmd]

/-- Settles O43: the step is the reset step, which writes the reset value of each register and of every channel. -/
theorem resetInputSetsValues : Obligations.ResetInputSetsValues :=
  fun s _ _ hs hrst hcmd => ⟨_, step_of_reset hs hrst hcmd, rfl, rfl, rfl, rfl, resetStep_chan s.block,
    rfl, rfl, rfl, rfl, rfl, rfl⟩

/-- Every channel of the reset values is 0: they are what the reset step leaves of themselves (R271). -/
theorem zero_chan {n : Nat} (k : Kind) (i : Fin n) : (Block.zero n).chan k i = Chan.zero :=
  resetStep_chan (Block.zero n) k i

/-- `rx_busy_o` is 1 exactly in `Receiving` (R37). -/
theorem rxBusyO_iff {n : Nat} (s : Block n) : s.rxBusyO = true ↔ s.rxState = .receiving := decide_eq_true_iff

/-- No channel has its flag set in the reset values, so `any_changed_o` is 0 (R272). -/
theorem zero_anyChangedO (n : Nat) : (Block.zero n).anyChangedO = false := by
  rw [Bool.eq_false_iff, ne_eq, anyChangedO_iff]
  rintro ⟨k, i, h⟩
  rw [zero_chan] at h
  cases h

/-- Settles O44: the reset values as they stand, and each level output as R37 says it. -/
theorem resetStateValues : Obligations.ResetStateValues :=
  ⟨rfl, rfl, rfl, zero_chan, rfl, rfl, rfl, rfl, rfl, rfl, rfl, rfl, zero_anyChangedO Config.isc.nCh,
    fun _ b => ⟨rfl, rxBusyO_iff b, anyChangedO_iff b⟩⟩

/-! ### The hold -/

/-- With no frame held RXB takes its byte, whatever its class (R128, R136). -/
theorem exec_rxb_takes (b : Byte) {s : State} (hready : s.block.msgReady = false) :
    ∃ t r, exec (.rxb b) s = .next t ∧ t.resp = .rxb r ∧ r.accepted = true := by
  obtain ⟨x, hx⟩ := receiveAs_ok (classify b) b s.block
  exact ⟨_, x.2, exec_of_receive (by simp) hx, rfl, receiveAs_accepts hready hx⟩

/-- Settles O58: the hold leaves the block, so the invariant lets the parser complete on it, and the parser holds no
frame afterwards. -/
theorem holdLiftedByParse : Obligations.HoldLiftedByParse := by
  intro s b hs hready i hi
  have hheld := byteHeldWhileFrameWaits b s hready (.rxb b) (by simp)
  obtain ⟨hparse, -⟩ := parserCompletesUnderInvariant b { s with resp := .rxb ⟨false, false, false⟩ } hs
  obtain ⟨t, ht, hidle, -⟩ := hparse i (by rcases List.mem_pair.mp hi with rfl | rfl <;> simp)
  obtain ⟨u, r, hu, hresp, haccepted⟩ := exec_rxb_takes b hidle
  exact ⟨t, u, r, hheld, ht, hu, hresp, haccepted⟩

/-! ### One more input behind those that wait -/

/-- No operation sees an input that waits behind those already there (R61). -/
theorem exec_issue (x : PortInput) (i : Instr) (s : State) :
    exec i (s.issue x) = mapOutcome (State.issue x) (exec i s) := by
  rw [exec_blockOp, exec_blockOp]
  show complete _ (blockOp Config.isc i s.snapData s.block) = _
  cases blockOp Config.isc i s.snapData s.block <;> rfl

/-- Taking an input does not see one that waits behind those already there (R61, R270). -/
theorem runInput_issue (x y : PortInput) (s : State) :
    runInput y (s.issue x) = mapOutcome (State.issue x) (runInput y s) :=
  runInputBy_mapOutcome (exec_issue x) (applyReset s) y s

/-- A step that has an input to take does not see one that waits behind it (R61). -/
theorem step_issue (x : PortInput) {y : PortInput} {rest : List PortInput} {s : State} (hs : s.inputs = y :: rest) :
    step (s.issue x) = mapOutcome (State.issue x) (step s) := by
  have hissue : (s.issue x).inputs = y :: (rest ++ [x]) := by rw [issue_inputs, hs, List.cons_append]
  rw [step_of_inputs hs, step_of_inputs hissue]
  exact runInput_issue x y { s with inputs := rest, snapData := y.snapData }

/-- A step that completes leaves the inputs it did not take (R83). -/
theorem inputs_of_step {y : PortInput} {rest : List PortInput} {s t : State} (hs : s.inputs = y :: rest)
    (h : step s = .next t) : t.inputs = rest := by
  rcases step_cases h with ⟨hnil, -⟩ | ⟨x, rest', hx, hcase⟩
  · cases hs.symm.trans hnil
  · cases hs.symm.trans hx
    rcases hcase with ⟨-, -, rfl⟩ | ⟨-, -, rfl⟩ | ⟨w, i, -, -, -, hexec⟩
    · rfl
    · rfl
    · exact (exec_keeps_ports hexec).2

/-! ### Runs -/

/-- The outputs that `run` collects of one step. -/
def stepOutputs (s t : State) : List (Resp Config.isc.nCh) := outputsOf s.inputs t.resp

/-- A run is one step for each of its inputs, from the reset state with them on the ports (R285). -/
theorem run_eq (xs : List PortInput) :
    run xs = runSteps step stepOutputs xs.length { State.reset with inputs := xs } := rfl

/-- A run that completes has a first step that does. -/
theorem runSteps_succ_eq_next {σ ρ : Type} {st : σ → Host.Outcome σ Fault Refusal} {out : σ → σ → List ρ} {k : Nat}
    {s t : σ} (h : (runSteps st out (k + 1) s).ending = .next t) :
    ∃ u, st s = .next u ∧ (runSteps st out k u).ending = .next t := by
  cases hst : st s with
  | next u => exact ⟨u, rfl, by rwa [runSteps_next hst] at h⟩
  | fault f => simp [runSteps, hst] at h
  | refused q => simp [runSteps, hst] at h

/-- One step for each waiting input takes them all and does not see the one behind them: its outputs are the same, and
that input is the only one left (R61, R285). -/
theorem runSteps_issue (x : PortInput) {xs : List PortInput} {s t : State} (hs : s.inputs = xs)
    (h : (runSteps step stepOutputs xs.length s).ending = .next t) :
    t.inputs = [] ∧ runSteps step stepOutputs xs.length (s.issue x) =
      { outputs := (runSteps step stepOutputs xs.length s).outputs, ending := .next (t.issue x) } := by
  induction xs generalizing s with
  | nil => cases h; exact ⟨hs, rfl⟩
  | cons y ys ih =>
    obtain ⟨u, hstep, hrest⟩ := runSteps_succ_eq_next h
    have hissue : step (s.issue x) = .next (u.issue x) := by rw [step_issue x hs, hstep]; rfl
    have hout : stepOutputs (s.issue x) (u.issue x) = stepOutputs s u := by simp [stepOutputs, outputsOf, hs]
    obtain ⟨hinputs, hys⟩ := ih (inputs_of_step hs hstep) hrest
    exact ⟨hinputs, by rw [List.length_cons, runSteps_next hissue, runSteps_next hstep, hys, hout]⟩

/-- A run with one more input completes as without it, and then goes on with one step, which has that input alone to
take (R285). -/
theorem run_append {xs : List PortInput} {outs : List (Resp Config.isc.nCh)} {t : State}
    (h : run xs = { outputs := outs, ending := .next t }) (x : PortInput) :
    t.inputs = [] ∧ run (xs ++ [x]) =
      { outputs := outs ++ (runSteps step stepOutputs 1 (t.issue x)).outputs
        ending := (runSteps step stepOutputs 1 (t.issue x)).ending } := by
  rw [run_eq] at h
  obtain ⟨hinputs, hissue⟩ := runSteps_issue x (s := { State.reset with inputs := xs }) rfl (congrArg (·.ending) h)
  refine ⟨hinputs, ?_⟩
  have hrun : run (xs ++ [x]) =
      runSteps step stepOutputs (xs.length + 1) (State.issue x { State.reset with inputs := xs }) := by
    rw [run_eq, List.length_append]; rfl
  rw [hrun, runSteps_add (congrArg (·.ending) hissue), hissue, h]

/-- With nothing on the ports, a step takes the input that the host puts there (R82, R83). -/
theorem step_of_issue (x : PortInput) {s : State} (hs : s.inputs = []) :
    step (s.issue x) = runInput x { s with snapData := x.snapData } := by
  have hissue : (s.issue x).inputs = x :: [] := by rw [issue_inputs, hs, List.nil_append]
  rw [step_of_inputs hissue, ← hs]
  rfl

section Extend

variable {xs : List PortInput} {x : PortInput} {outs : List (Resp Config.isc.nCh)} {t : State}

/-- A run goes on with an added input that completes: its record, if it is a command, is added to the outputs (R285). -/
theorem run_append_next {u : State} (h : run xs = { outputs := outs, ending := .next t })
    (hx : runInput x { t with snapData := x.snapData } = .next u) :
    run (xs ++ [x]) = { outputs := outs ++ outputsOf [x] u.resp, ending := .next u } := by
  obtain ⟨hinputs, hrun⟩ := run_append h x
  have hstep : step (t.issue x) = .next u := (step_of_issue x hinputs).trans hx
  rw [hrun, runSteps_next hstep, stepOutputs, issue_inputs, hinputs, runSteps_zero, List.append_nil, List.nil_append]

/-- A run ends at an added input that is a host fault, with the outputs so far (R8, R285). -/
theorem run_append_fault {f : Fault} (h : run xs = { outputs := outs, ending := .next t })
    (hx : runInput x { t with snapData := x.snapData } = .fault f) :
    run (xs ++ [x]) = { outputs := outs, ending := .fault f } := by
  obtain ⟨hinputs, hrun⟩ := run_append h x
  have hstep : step (t.issue x) = .fault f := (step_of_issue x hinputs).trans hx
  simp [hrun, runSteps, hstep]

/-- An input without a command and without `rst` leaves the state (R83). -/
theorem runInput_of_none (hrst : x.rst = false) (hcmd : x.cmd = none) (s : State) : runInput x s = .next s := by
  simp [runInput, runInputBy, hrst, hcmd]

/-- An input with a command and without `rst` runs its word (R83). -/
theorem runInput_of_some {w : CmdWord} (hrst : x.rst = false) (hcmd : x.cmd = some w) (s : State) :
    runInput x s = runCmd w s := by
  simp [runInput, runInputBy, hrst, hcmd, runCmd]

end Extend

/-- Settles O59: the run goes on with the added input alone, which leaves the state or runs its word. -/
theorem runExtendsByOneCommand : Obligations.RunExtendsByOneCommand := by
  refine ⟨rfl, fun xs x outs t h hrst => ⟨fun hcmd => ?_, fun w u hcmd hw => ?_, fun w f hcmd hw => ?_⟩⟩
  · rw [run_append_next h (runInput_of_none hrst hcmd _)]
    simp [outputsOf, hcmd]
  · rw [run_append_next h ((runInput_of_some hrst hcmd _).trans hw)]
    simp [outputsOf, hcmd]
  · exact run_append_fault h ((runInput_of_some hrst hcmd _).trans hw)

end Sys2Proof.Machine
end
